-- ==== Sys2Proof/Word.lean ====
section
/-! DEFINITION. The words of CAN-PR1 and their byte view.

A register, the program counter and an effective address are 32 bits (R4 `XLEN`, R22, R28, R45; the width is the
spec's decision D1, D3: log 3), an instruction is 16 bits (R60), an address counts bytes (R40). -/

namespace Sys2Proof

/-- A 32-bit register, program counter, address or memory word (R22, R28, R41, R45). -/
abbrev Word := BitVec 32

/-- The unit that data addresses count (R40). -/
abbrev Byte := BitVec 8

/-- One instruction word, numbered as R6 numbers it: the source's bit `[00]` is bit 15. -/
abbrev IWord := BitVec 16

/-- A general register's number, 0 to 15 (R21, R69). -/
abbrev RegId := Fin 16

/-- Byte order of a data word where the host views data memory as bytes (R4 `ENDIAN`, R42). -/
inductive Endian where
  | little
  | big
  deriving DecidableEq, Repr

end Sys2Proof
end

