-- ==== Sys2Proof/Syntax.lean ====
section
/-! DEFINITION. The seven instructions of CAN-PR1 (R1), one constructor per row of the opcode table (R70), their
operands in the order the binary word holds them (R63 to R66). A register operand is its number (R69); an immediate
is the signed number its field stands for (R68), which `Sys2Proof.Instr.WellFormed` bounds. -/

namespace Sys2Proof

/-- One instruction with its operands, named as the spec names the fields. -/
inductive Instr where
  /-- Branch if register `rs` is not zero, by the signed offset `imm11` (R63, R80). -/
  | bne (imm11 : Int) (rs : RegId)
  /-- Load register `rt` from base `rb` plus 4 times `imm5` (R64, R91). -/
  | load (imm5 : Int) (rb rt : RegId)
  /-- Store register `rt` to base `rb` plus 4 times `imm5` (R64, R92). -/
  | store (imm5 : Int) (rb rt : RegId)
  /-- Add registers `rs1` and `rs2` into `rd` (R65, R101). -/
  | add (rd rs2 rs1 : RegId)
  /-- Shift register `rs1` by the signed amount in `rs2` into `rd` (R65, R102). -/
  | sll (rd rs2 rs1 : RegId)
  /-- Exclusive or of registers `rs1` and `rs2` into `rd` (R65, R103). -/
  | xor (rd rs2 rs1 : RegId)
  /-- Copy the signed constant `imm8` into register `rd` (R66, R110). -/
  | cpy (rd : RegId) (imm8 : Int)
  deriving DecidableEq, Repr

/-- The seven mnemonics in the spec's own spelling (R1, R70, R76). -/
inductive Mnemonic where
  | BNE
  | LOAD
  | STORE
  | ADD
  | SLL
  | XOR
  | CPY
  deriving DecidableEq, Repr

/-- The mnemonic of an instruction (R70). -/
def Instr.mnemonic : Instr → Mnemonic
  | .bne _ _ => .BNE
  | .load _ _ _ => .LOAD
  | .store _ _ _ => .STORE
  | .add _ _ _ => .ADD
  | .sll _ _ _ => .SLL
  | .xor _ _ _ => .XOR
  | .cpy _ _ => .CPY

/-- The registers an instruction reads, as the table of R24 lists them. -/
def Instr.reads : Instr → List RegId
  | .bne _ rs => [rs]
  | .load _ rb _ => [rb]
  | .store _ rb rt => [rb, rt]
  | .add _ rs2 rs1 => [rs1, rs2]
  | .sll _ rs2 rs1 => [rs1, rs2]
  | .xor _ rs2 rs1 => [rs1, rs2]
  | .cpy _ _ => []

/-- The register an instruction writes, as the table of R24 lists it. -/
def Instr.writes : Instr → Option RegId
  | .bne _ _ => none
  | .load _ _ rt => some rt
  | .store _ _ _ => none
  | .add rd _ _ => some rd
  | .sll rd _ _ => some rd
  | .xor rd _ _ => some rd
  | .cpy rd _ => some rd

end Sys2Proof
end

