-- ==== Sys2Proof/WellFormed.lean ====
section
/-! DEFINITION. Which terms of `Instr` an instruction word can hold: every immediate lies in its field's signed range
(R63, R64, R66, R68). Register numbers are bounded by their type (R69), and no field value is excluded (R71). -/

namespace Sys2Proof

/-- `imm11` is the signed number of an 11-bit field, -1024 .. +1023 (R63). -/
def fitsImm11 (imm11 : Int) : Bool := decide (-1024 ≤ imm11) && decide (imm11 ≤ 1023)

/-- `imm5` is the signed number of a 5-bit field, -16 .. +15 (R64). -/
def fitsImm5 (imm5 : Int) : Bool := decide (-16 ≤ imm5) && decide (imm5 ≤ 15)

/-- `imm8` is the signed number of an 8-bit field, -128 .. +127 (R66). -/
def fitsImm8 (imm8 : Int) : Bool := decide (-128 ≤ imm8) && decide (imm8 ≤ 127)

/-- The check: the instruction's immediate fits its field. -/
def Instr.wellFormed (i : Instr) : Bool :=
  match i with
  | .bne imm11 _ => fitsImm11 imm11
  | .load imm5 _ _ => fitsImm5 imm5
  | .store imm5 _ _ => fitsImm5 imm5
  | .add _ _ _ => true
  | .sll _ _ _ => true
  | .xor _ _ _ => true
  | .cpy _ imm8 => fitsImm8 imm8

/-- The instruction can be held by an instruction word. -/
abbrev Instr.WellFormed (i : Instr) : Prop := i.wellFormed = true

end Sys2Proof
end

