-- ==== Sys2Proof/Decode.lean ====
section
/-! DEFINITION. The decoder of R62 to R66, total on the 65536 words (R71), and the encoder of R78.

An instruction slot holds one 16-bit word and has no byte view (R47, D23: log 14), so decoding starts from a word. A
number that is no 16-bit word is rejected by name. -/

namespace Sys2Proof

/-- The source's bit `[k]` of a word, `k` = 0 .. 15 from the left (R5, R6). -/
def sourceBit (w : IWord) (k : Nat) : Bool := w.getLsbD (15 - k)

/-- The register number in the four bits of `w` from bit `lo` up (R69). -/
def regField (w : IWord) (lo : Nat) : RegId := (w.extractLsb' lo 4).toFin

/-- The signed number in the `n` bits of `w` from bit `lo` up (R7, R68). -/
def immField (w : IWord) (lo n : Nat) : Int := (w.extractLsb' lo n).toInt

/-- The decoder: look at `d[0]`, then `d[1]`, then `d[2]` and `d[3]` (R62), and take the fields of R63 to R66. -/
def decode (w : IWord) : Instr :=
  if sourceBit w 0 then .bne (immField w 4 11) (regField w 0)
  else if !sourceBit w 1 then
    if !sourceBit w 2 then .load (immField w 8 5) (regField w 4) (regField w 0)
    else .store (immField w 8 5) (regField w 4) (regField w 0)
  else
    match sourceBit w 2, sourceBit w 3 with
    | false, false => .add (regField w 8) (regField w 4) (regField w 0)
    | false, true => .sll (regField w 8) (regField w 4) (regField w 0)
    | true, false => .xor (regField w 8) (regField w 4) (regField w 0)
    | true, true => .cpy (regField w 8) (immField w 0 8)

/-- Why a number is not decoded. -/
inductive DecodeError where
  /-- The number has a bit above bit 15: every instruction is exactly 16 bits (R60), so it is no instruction word. -/
  | notSixteenBits
  deriving DecidableEq, Repr

/-- The decoder on any number: a 16-bit word is decoded, anything wider is rejected by name (R60). -/
def decodeNat (w : Nat) : Except DecodeError Instr :=
  if w < 2 ^ 16 then .ok (decode (BitVec.ofNat 16 w)) else .error .notSixteenBits

/-- The instruction the decoder reads from the bits `w` of an opcode-table row of `nbits` bits (every row has 16). -/
def decodeTableWord (nbits w : Nat) : Option Instr :=
  if nbits ≤ 16 then (decodeNat w).toOption else none

/-- A register number as a field, placed from bit `lo` up (R69, R78). -/
def regBits (r : RegId) (lo : Nat) : IWord := BitVec.ofNat 16 r.val <<< lo

/-- The `n` bits of a signed immediate as a field, placed from bit `lo` up (R7, R68, R78). -/
def immBits (n : Nat) (imm : Int) (lo : Nat) : IWord := (BitVec.ofInt n imm).setWidth 16 <<< lo

/-- The word of an instruction, built from its fields as R78 builds it, in the layouts of R63 to R66. -/
def encode (i : Instr) : IWord :=
  match i with
  | .bne imm11 rs => 0x8000#16 ||| immBits 11 imm11 4 ||| regBits rs 0
  | .load imm5 rb rt => 0x0000#16 ||| immBits 5 imm5 8 ||| regBits rb 4 ||| regBits rt 0
  | .store imm5 rb rt => 0x2000#16 ||| immBits 5 imm5 8 ||| regBits rb 4 ||| regBits rt 0
  | .add rd rs2 rs1 => 0x4000#16 ||| regBits rd 8 ||| regBits rs2 4 ||| regBits rs1 0
  | .sll rd rs2 rs1 => 0x5000#16 ||| regBits rd 8 ||| regBits rs2 4 ||| regBits rs1 0
  | .xor rd rs2 rs1 => 0x6000#16 ||| regBits rd 8 ||| regBits rs2 4 ||| regBits rs1 0
  | .cpy rd imm8 => 0x7000#16 ||| regBits rd 8 ||| immBits 8 imm8 0

/-- The `mask` column of the opcode map (R70). -/
def Mnemonic.mask : Mnemonic → IWord
  | .BNE => 0x8000
  | .LOAD => 0xE000
  | .STORE => 0xE000
  | .ADD => 0xF000
  | .SLL => 0xF000
  | .XOR => 0xF000
  | .CPY => 0xF000

/-- The `match` column of the opcode map (R70). -/
def Mnemonic.pattern : Mnemonic → IWord
  | .BNE => 0x8000
  | .LOAD => 0x0000
  | .STORE => 0x2000
  | .ADD => 0x4000
  | .SLL => 0x5000
  | .XOR => 0x6000
  | .CPY => 0x7000

/-- The word selects the row of the mnemonic: `(I & mask) = match` (R70). -/
def Mnemonic.selects (m : Mnemonic) (w : IWord) : Bool := (w &&& m.mask) == m.pattern

end Sys2Proof
end

