-- ==== Sys2Proof/Config.lean ====
section
/-! DEFINITION. What the spec leaves to the configuration of a run: the two values it leaves open as uninterpreted
functions, and the one choice it decides but lets a model expose (R4). The launch arguments of a run (`PROG`,
`PROG_BASE`, `DMEM`, `ENDIAN`) stand in the state: `Sys2Proof.Machine.Launch`. -/

namespace Sys2Proof.Config

/-- `SHIFT_OOR` (R4, R102, U2): what SLL writes when its signed amount is at most -32 or at least 32, as an
uninterpreted function of the value shifted and the amount. No body: nothing can be proved of its value (log 1). -/
opaque shiftOor (a amount : Word) : Word

/-- What the word at a word address of `DMEM` holds when neither `DMEM_INIT` nor a STORE wrote it: a fixed unknown
32-bit value per word (R44, U6). No body: nothing can be proved of its value (log 5). -/
opaque unwrittenWord (wordAddr : Nat) : Word

/-- `SHIFT_RIGHT_ARITH` (R4, R102): whether copies of the sign bit enter at the top when SLL shifts right. The spec
decides true (its decision D13; log 2). DESIGN CHOICE: the source shows no negative value shifted right. -/
def shiftRightArith : Bool := true

end Sys2Proof.Config
end

