-- ==== Sys2Proof/Machine/State.lean ====
section
/-! DEFINITION. The state of CAN-PR1 as plain data: the sixteen registers, the program counter and data memory (R36:
"exactly"), with the launch arguments the host supplies before a run (R4, R144), which the step reads and never
changes. The reasons a step stops are here too. -/

namespace Sys2Proof.Machine

/-- Data memory: the bytes written so far, by the host before the run (`DMEM_INIT`, R144) or by a STORE, as (address,
byte) pairs. An address that is not listed holds no written byte: `Memory.cell` gives `none` there, and what a LOAD
then reads is the free value of U6 (log 5). -/
abbrev Memory := List Host.Cell

/-- The one canonical form: addresses strictly rising, so each at most once. No entry can equal what an unlisted
address reads as, because that is `none`. -/
abbrev Memory.wf (m : Memory) : Prop := (m.map Prod.fst).Pairwise (· < ·)

/-- A stretch of valid data addresses: `words` words of 4 bytes from byte address `base` up (R44, R46). -/
structure Region where
  base : Nat
  words : Nat
  deriving DecidableEq, Repr

/-- What the host supplies before a run and nothing changes during it (R4, R36, R144). -/
structure Launch where
  /-- `PROG_BASE`: the address of the first instruction (D4). -/
  progBase : Word
  /-- `PROG`: the instruction memory, one 16-bit word a slot, slots 4 addresses apart (R47). -/
  prog : List IWord
  /-- `DMEM`: the valid data addresses, as the union of these regions (R44, R46, D9). -/
  dmem : List Region
  /-- `ENDIAN`: the byte order of a data word (R42, D10). -/
  endian : Endian
  deriving DecidableEq, Repr

/-- The whole state of the machine (R36). -/
structure State where
  /-- The general registers `x[0]` to `x[15]` (R21, R22). None is hardwired (R23). -/
  regs : Vector Word 16
  /-- The address of the instruction being executed (R27, R28). -/
  pc : Word
  /-- Data memory (R34, R40). -/
  mem : Memory
  /-- The launch arguments: the program and its base, the valid data addresses, the byte order (R4, R36). -/
  launch : Launch
  deriving DecidableEq, Repr

/-- Why a step has no next state. The last four are the model-level faults of R121, with the value each records; a
fault changes nothing (R121, R124). -/
inductive Fault where
  /-- The normal end of a run, not an error: raised by the fetch at `PROG_BASE + 4 * N`, just after the program's last
  instruction; `result` is `x[15]`, the value the host reads (R143, U9; log 9). Safe: the chip may go on somehow, and
  the model says nothing about that. -/
  | halted (result : Word)
  /-- Code 1. Raised by the fetch when the pc is not a whole number of slots from `PROG_BASE` (R30, R47). Safe: the
  chip's behaviour there is unknown (log 12). -/
  | fetchMisaligned (pc : Word)
  /-- Code 2. Raised by the fetch when the pc is aligned, outside the program and not its end (R47). Safe: the chip's
  behaviour there is unknown (log 12). -/
  | fetchOutsideProgram (pc : Word)
  /-- Code 3. Raised by LOAD and STORE when the effective address is not a multiple of 4 (R43, R44). Safe (log 12). -/
  | dataMisaligned (ea : Word)
  /-- Code 4. Raised by LOAD and STORE when the aligned effective address is not in `DMEM` (R44, R46). Safe (log 12). -/
  | dataOutOfRange (ea : Word)
  deriving DecidableEq, Repr

/-- An instruction the model gives no meaning. None is left: every arm of `exec` has its meaning. -/
inductive Refusal where
  /-- Would be raised by an arm of `exec` for an instruction not modelled yet. Safe. -/
  | notModelled (mnemonic : String)
  deriving DecidableEq, Repr

/-- The launch arguments where the host supplies nothing: `PROG_BASE` at its default 0, no program (`N` = 0), every
multiple of 4 below 2^32 in `DMEM` (R46 "the largest machine"), `ENDIAN` at its default little (R4; log 6, 7, 8). -/
def Launch.reset : Launch :=
  { progBase := 0
    prog := []
    dmem := [{ base := 0, words := 2 ^ 30 }]
    endian := .little }

/-- The state at the start of a run (R36, R140, R141): the pc at `PROG_BASE`, data memory as the host filled it
(`DMEM_INIT`), and the registers at some values the spec leaves unspecified (D15). -/
def State.start (launch : Launch) (dmemInit : Memory) (regs : Vector Word 16) : State :=
  { regs := regs
    pc := launch.progBase
    mem := dmemInit
    launch := launch }

/-- The machine right after reset with nothing supplied by the host. DESIGN CHOICE: the registers, which the spec
leaves unspecified (R36, D15), are 0 (log 4). -/
def State.reset : State := State.start Launch.reset [] (Vector.replicate 16 0)

end Sys2Proof.Machine
end

