-- ==== Sys2Proof/Machine/Ops.lean ====
section
/-! DEFINITION. The named operations every meaning is built from: registers and pc, one byte and one word of data
memory, `MemRead` and `MemWrite` (R44), `IFetch` (R47), and the model-level fault (R121).

The machine has no exception to take and none to return from (R120, R124, R125): `raise` is its one way to stop. -/

namespace Sys2Proof.Machine

/-- The outcome of one step of this machine. -/
abbrev Result := Host.Outcome State Fault Refusal

/-- Stop in a model-level fault state: no register, memory or pc change, no handler (R8 `raise`, R121, R124). -/
def raise (f : Fault) : Result := .fault f

/-! ### Registers and the pc -/

/-- `x[r]` (R8). -/
def State.reg (s : State) (r : RegId) : Word := s.regs[r.val]

/-- `x[r] <- v`: all 16 registers are writable, none is hardwired (R8, R23). -/
def State.setReg (s : State) (r : RegId) (v : Word) : State := { s with regs := s.regs.set r.val v }

/-- `pc <- t` (R8). -/
def State.setPc (s : State) (t : Word) : State := { s with pc := t }

/-- `pc <- pc + 4`, modulo 2^32: on to the next instruction (R28, R29; the step of 4 is the spec's decision D2, log 10). -/
def State.nextPc (s : State) : State := s.setPc (s.pc + 4)

/-! ### Data memory, byte by byte -/

/-- The byte last written at an address, or `none` if neither the host nor a STORE wrote it. This one definition says
what an unlisted address reads as. -/
def Memory.cell : Memory → Nat → Option Byte
  | [], _ => none
  | (k, b) :: m, a => if k = a then some b else Memory.cell m a

/-- Write one byte, keeping the canonical form. -/
def Memory.put : Memory → Nat → Byte → Memory
  | [], a, v => [(a, v)]
  | (k, b) :: m, a, v =>
    if a < k then (a, v) :: (k, b) :: m
    else if a = k then (a, v) :: m
    else (k, b) :: Memory.put m a v

/-- Which byte of a word lies at offset `k` of its address: the byte at `A` holds bits 7:0 in little endian, bits 31:24
in big endian (R42; log 8). -/
def byteOf (e : Endian) (w : Word) (k : Nat) : Byte :=
  match e with
  | .little => w.extractLsb' (8 * k) 8
  | .big => w.extractLsb' (8 * (3 - k)) 8

/-- The word of four bytes in address order, the other way round (R42). -/
def wordOf (e : Endian) (b0 b1 b2 b3 : Byte) : Word :=
  match e with
  | .little => b3 ++ b2 ++ b1 ++ b0
  | .big => b0 ++ b1 ++ b2 ++ b3

/-- What a byte of data memory reads as: the byte last written, or its byte of the word's fixed unknown value if nothing
wrote it (R44, U6; log 5). -/
def Memory.read (e : Endian) (m : Memory) (a : Nat) : Byte :=
  (m.cell a).getD (byteOf e (Config.unwrittenWord (a - a % 4)) (a % 4))

/-- The word at byte address `a` (R40, R42). -/
def Memory.readWord (e : Endian) (m : Memory) (a : Nat) : Word :=
  wordOf e (m.read e a) (m.read e (a + 1)) (m.read e (a + 2)) (m.read e (a + 3))

/-- Write the word `v` at byte address `a` (R40, R42). -/
def Memory.writeWord (e : Endian) (m : Memory) (a : Nat) (v : Word) : Memory :=
  (((m.put a (byteOf e v 0)).put (a + 1) (byteOf e v 1)).put (a + 2) (byteOf e v 2)).put (a + 3) (byteOf e v 3)

/-! ### Which data addresses exist -/

/-- The whole word at `a` lies in the region. -/
def Region.covers (r : Region) (a : Nat) : Bool := decide (r.base ≤ a) && decide (a + 4 ≤ r.base + 4 * r.words)

/-- `a` is in `DMEM`, a set of multiples of 4 (R44, R46). -/
def Launch.inDmem (l : Launch) (a : Nat) : Bool := decide (a % 4 = 0) && l.dmem.any (fun r => r.covers a)

/-! ### The memory primitives -/

/-- The tests of `MemRead` and `MemWrite`, in their order: misaligned first, then outside `DMEM` (R43, R44, R123). -/
def State.dataCheck (s : State) (ea : Word) : Except Fault Unit :=
  if ea.toNat % 4 ≠ 0 then .error (.dataMisaligned ea)
  else if s.launch.inDmem ea.toNat then .ok ()
  else .error (.dataOutOfRange ea)

/-- `MemRead(addr, 4)` (R44). -/
def State.memRead (s : State) (ea : Word) : Except Fault Word :=
  match s.dataCheck ea with
  | .ok () => .ok (s.mem.readWord s.launch.endian ea.toNat)
  | .error f => .error f

/-- `MemWrite(addr, 4, v)` (R44). -/
def State.memWrite (s : State) (ea v : Word) : Except Fault State :=
  match s.dataCheck ea with
  | .ok () => .ok { s with mem := s.mem.writeWord s.launch.endian ea.toNat v }
  | .error f => .error f

/-! ### Instruction memory -/

/-- `off = (pc - PROG_BASE) mod 2^32` (R47). -/
def State.fetchOffset (s : State) : Nat := (s.pc - s.launch.progBase).toNat

/-- `IFetch(pc)`, its tests in the order of R47: the end of the program first (halt, with the result in `x[15]`, R143),
then a misaligned pc, then a pc outside the program; otherwise the word of the slot. -/
def State.fetch (s : State) : Except Fault IWord :=
  if s.fetchOffset = 4 * s.launch.prog.length then .error (.halted (s.reg 15))
  else if s.fetchOffset % 4 ≠ 0 then .error (.fetchMisaligned s.pc)
  else
    match s.launch.prog[s.fetchOffset / 4]? with
    | some w => .ok w
    | none => .error (.fetchOutsideProgram s.pc)

/-- The host loads a program of the one word `w` at the pc, as it loads any program before a run (R47, R144). -/
def State.loadWord (s : State) (w : IWord) : State :=
  { s with launch := { s.launch with progBase := s.pc, prog := [w] } }

end Sys2Proof.Machine
end

