-- ==== Sys2Proof/Machine/Operands.lean ====
section
/-! DEFINITION. The operand forms: a signed immediate as a word (R68), the one addressing mode (R90), the branch target
(R80), and the shift of SLL (R102). -/

namespace Sys2Proof.Machine

/-- A signed number as a 32-bit word: on a field's signed number this is `sext_N` of the field (R7, R8, R68). -/
def immWord (imm : Int) : Word := BitVec.ofInt 32 imm

/-- `EA = (x[rb] + 4 * sext_5(imm5)) mod 2^32`, the one addressing mode; the base is not scaled and not changed (R45,
R90). -/
def State.effAddr (s : State) (imm5 : Int) (rb : RegId) : Word := s.reg rb + 4 * immWord imm5

/-- `pc + sext_11(imm11)`, from the address of the BNE itself, not scaled, modulo 2^32 (R27, R28, R80). -/
def State.branchTarget (s : State) (imm11 : Int) : Word := s.pc + immWord imm11

/-- A right shift by `n` places, `0 < n < 32`: with `arith` copies of the sign bit enter at the top, else zeros (R8
`asr`, R102 `SHIFT_RIGHT_ARITH`). -/
def shiftRight (arith : Bool) (a : Word) (n : Nat) : Word :=
  match arith with
  | true => a.sshiftRight n
  | false => a >>> n

/-- The result of SLL on the value `a` and the amount register's value `amount`, read as a signed number: a left shift
for 0 .. 31, a right shift by the magnitude for -31 .. -1, and the free value of U2 for every other amount (R102;
log 1, log 2). -/
def shiftLeftSigned (a amount : Word) : Word :=
  if 0 ≤ amount.toInt ∧ amount.toInt < 32 then a <<< amount.toInt.toNat
  else if -32 < amount.toInt ∧ amount.toInt < 0 then shiftRight Config.shiftRightArith a (-amount.toInt).toNat
  else Config.shiftOor a amount

end Sys2Proof.Machine
end

