-- ==== Sys2Proof/Machine/Arith.lean ====
section
/-! DEFINITION. Type 3: the arithmetic and logic instructions ADD, SLL and XOR (spec/42_arith_logic.md). Each reads both
operands before it writes `rd`, touches no memory and raises nothing (R100). -/

namespace Sys2Proof.Machine

/-- What the three have in common: write `op` of the two operand registers to `rd` and go on (R100). -/
def aluWrite (op : Word → Word → Word) (rd rs2 rs1 : RegId) (s : State) : Result :=
  .next (s.setReg rd (op (s.reg rs1) (s.reg rs2))).nextPc

/-- ADD: the sum modulo 2^32, no overflow signalled (R101). -/
def execAdd (rd rs2 rs1 : RegId) (s : State) : Result := aluWrite (fun a b => a + b) rd rs2 rs1 s

/-- SLL: operand 1 shifted left by the signed operand 2 (R102). -/
def execSll (rd rs2 rs1 : RegId) (s : State) : Result := aluWrite shiftLeftSigned rd rs2 rs1 s

/-- XOR: the bitwise exclusive or (R103). -/
def execXor (rd rs2 rs1 : RegId) (s : State) : Result := aluWrite (fun a b => a ^^^ b) rd rs2 rs1 s

end Sys2Proof.Machine
end

