-- ==== Sys2Proof/Machine/Flags.lean ====
section
/-! DEFINITION. Flags. The machine has no status flag, condition code or predicate register, and no instruction writes
one (R31). The one condition an instruction tests is BNE's, on a register's value. -/

namespace Sys2Proof.Machine

/-- The test of BNE, on all 32 bits of the register (R80, corner case a). -/
def isNonZero (v : Word) : Bool := v != 0

end Sys2Proof.Machine
end

