-- ==== Sys2Proof/Machine/Branch.lean ====
section
/-! DEFINITION. Type 1: the conditional branch BNE (spec/40_branch.md). -/

namespace Sys2Proof.Machine

/-- BNE: a non-zero register sends the pc to the BNE's own address plus the immediate, a zero register to the next
instruction. It writes nothing else and raises nothing; a bad target faults at the next fetch (R80). No delay slot
(R83; log 15). -/
def execBne (imm11 : Int) (rs : RegId) (s : State) : Result :=
  if isNonZero (s.reg rs) then .next (s.setPc (s.branchTarget imm11)) else .next s.nextPc

end Sys2Proof.Machine
end

