-- ==== Sys2Proof/Machine/Copy.lean ====
section
/-! DEFINITION. Type 4: the copy instruction CPY (spec/43_copy.md). -/

namespace Sys2Proof.Machine

/-- CPY: the register `rd` gets the sign-extended constant; no bit of its old value survives (R110). -/
def execCpy (rd : RegId) (imm8 : Int) (s : State) : Result := .next (s.setReg rd (immWord imm8)).nextPc

end Sys2Proof.Machine
end

