-- ==== Sys2Proof/Machine/LoadStore.lean ====
section
/-! DEFINITION. Type 2: LOAD and STORE (spec/41_load_store.md). -/

namespace Sys2Proof.Machine

/-- LOAD: the register `rt` gets the word at the effective address, all 32 bits; on a fault nothing changes (R91). -/
def execLoad (imm5 : Int) (rb rt : RegId) (s : State) : Result :=
  match s.memRead (s.effAddr imm5 rb) with
  | .ok v => .next (s.setReg rt v).nextPc
  | .error f => raise f

/-- STORE: the word at the effective address gets the register `rt`, all 32 bits; on a fault nothing changes (R92). -/
def execStore (imm5 : Int) (rb rt : RegId) (s : State) : Result :=
  match s.memWrite (s.effAddr imm5 rb) (s.reg rt) with
  | .ok s' => .next s'.nextPc
  | .error f => raise f

end Sys2Proof.Machine
end

