-- ==== Sys2Proof/Machine/Dispatch.lean ====
section
/-! DEFINITION. The one place an instruction meets its meaning: one arm per constructor of `Instr`. -/

namespace Sys2Proof.Machine

/-- What one instruction does to the state. -/
def exec (i : Instr) (s : State) : Host.Outcome State Fault Refusal :=
  match i with
  | .bne imm11 rs => Sys2Proof.Machine.execBne imm11 rs s
  | .load imm5 rb rt => Sys2Proof.Machine.execLoad imm5 rb rt s
  | .store imm5 rb rt => Sys2Proof.Machine.execStore imm5 rb rt s
  | .add rd rs2 rs1 => Sys2Proof.Machine.execAdd rd rs2 rs1 s
  | .sll rd rs2 rs1 => Sys2Proof.Machine.execSll rd rs2 rs1 s
  | .xor rd rs2 rs1 => Sys2Proof.Machine.execXor rd rs2 rs1 s
  | .cpy rd imm8 => Sys2Proof.Machine.execCpy rd imm8 s

end Sys2Proof.Machine
end

