-- ==== Sys2Proof/Machine/Step.lean ====
section
/-! DEFINITION. One step: fetch at the pc, decode, execute completely (R47, R149). -/

namespace Sys2Proof.Machine

/-- Fetch the word at the pc and execute the instruction it decodes to; where the fetch stops, the machine stops (R47,
R121, R143, R149). Every word decodes (R71). -/
def step (s : State) : Host.Outcome State Fault Refusal :=
  match s.fetch with
  | .ok w => exec (decode w) s
  | .error f => raise f

/-- The state with the instruction of bits `w` where `step` fetches its next instruction: the host's load of a program
of that one word at the pc (R144; log 6). Every row of the opcode table is one 16-bit word, so `nbits` is 16 and the
bits above it are none. -/
def State.withFetchWord (s : State) (nbits w : Nat) : State := s.loadWord (BitVec.ofNat 16 (w % 2 ^ nbits))

end Sys2Proof.Machine
end

