-- ==== Sys2Proof/Safety.lean ====
section
/-! DEFINITION. What counts as a legal state and a safe run, and the relations between runs that statements are made
in: a program moved to another base (R141), and the other byte order (R42). -/

namespace Sys2Proof.Machine

/-- The code R121 gives a model-level fault; `none` for the normal end of a run, which is no fault (R143). -/
def Fault.code : Fault → Option Nat
  | .halted _ => none
  | .fetchMisaligned _ => some 1
  | .fetchOutsideProgram _ => some 2
  | .dataMisaligned _ => some 3
  | .dataOutOfRange _ => some 4

/-- Data memory lists written bytes only of words that exist: every listed address is below 2^32 and in a word of `DMEM`
(R44, R56). -/
def State.memInDmem (s : State) : Prop :=
  ∀ c ∈ s.mem, c.1 < 2 ^ 32 ∧ s.launch.inDmem (c.1 - c.1 % 4) = true

/-- The invariant: data memory is canonical, and holds only bytes of existing words. -/
def State.Inv (s : State) : Prop := s.mem.wf ∧ s.memInDmem

/-! ### The same run at another base (R141) -/

/-- The state with program and pc moved by `d`. -/
def State.relocate (d : Word) (s : State) : State :=
  { s with pc := s.pc + d, launch := { s.launch with progBase := s.launch.progBase + d } }

/-- The reason with an instruction address in it moved by `d`. -/
def Fault.relocate (d : Word) : Fault → Fault
  | .halted r => .halted r
  | .fetchMisaligned p => .fetchMisaligned (p + d)
  | .fetchOutsideProgram p => .fetchOutsideProgram (p + d)
  | .dataMisaligned ea => .dataMisaligned ea
  | .dataOutOfRange ea => .dataOutOfRange ea

/-- The outcome moved by `d`. -/
def Result.relocate (d : Word) : Result → Result
  | .next t => .next (t.relocate d)
  | .fault f => .fault (f.relocate d)
  | .refused r => .refused r

/-! ### The same run under the other byte order (R42) -/

/-- The other byte order. -/
def flipEndian : Endian → Endian
  | .little => .big
  | .big => .little

/-- The address of the mirror byte within the same word: offsets 0, 1, 2, 3 become 3, 2, 1, 0. -/
def mirrorByte (a : Nat) : Nat := a - a % 4 + (3 - a % 4)

/-- `t` is `s` under the other byte order: the same registers, pc, program and `DMEM`, and every word's bytes mirrored. -/
def State.EndianTwin (s t : State) : Prop :=
  t.regs = s.regs ∧ t.pc = s.pc ∧ t.launch = { s.launch with endian := flipEndian s.launch.endian } ∧
    ∀ a, t.mem.cell (mirrorByte a) = s.mem.cell a

end Sys2Proof.Machine
end

