-- ==== Sys2Proof/Certificates/Slice0/Obligations.lean ====
section
/-! DEFINITION. The statements for the provers, each a claim of the spec's rules about the model. A docstring names the
rules; where a clause rests on one of the spec's own decisions (D<n> of 92_eei_decisions.md) or on a choice of the model
(log <n>), it says so. -/

section

open Sys2Proof Sys2Proof.Machine

/-! ### Encoding -/

/-- Building a word from the fields of a well-formed instruction and decoding it gives the instruction back, every
operand at every value its field admits (R63 to R66, R78). -/
def Obligations.EncodeThenDecodeIsIdentity : Prop :=
  ∀ i : Instr, i.WellFormed → decode (encode i) = i

/-- Every one of the 65536 words is exactly one instruction: the decoded one is well formed and encodes to the word, and
no other well-formed instruction does; the all-zero word is `Load $0, $0, +0`, the all-ones word `Bne $15, -1` (R71,
which the spec derives from R62 to R66). -/
def Obligations.EveryWordIsExactlyOneInstruction : Prop :=
  (∀ w : IWord, ((decode w).WellFormed ∧ encode (decode w) = w) ∧
    ∀ i : Instr, i.WellFormed → encode i = w → i = decode w) ∧
  decode 0x0000#16 = .load 0 0 0 ∧ decode 0xFFFF#16 = .bne (-1) 15

/-- The decoding order of R62, with `d[k]` the digit of weight `2^(15-k)` in the word (R6). -/
def Obligations.LeadingDigitsSelectTheInstruction : Prop :=
  ∀ w : IWord, let d := fun k => w.toNat / 2 ^ (15 - k) % 2
    (d 0 = 1 → (decode w).mnemonic = .BNE) ∧
    (d 0 = 0 → d 1 = 0 → d 2 = 0 → (decode w).mnemonic = .LOAD) ∧
    (d 0 = 0 → d 1 = 0 → d 2 = 1 → (decode w).mnemonic = .STORE) ∧
    (d 0 = 0 → d 1 = 1 → d 2 = 0 → d 3 = 0 → (decode w).mnemonic = .ADD) ∧
    (d 0 = 0 → d 1 = 1 → d 2 = 0 → d 3 = 1 → (decode w).mnemonic = .SLL) ∧
    (d 0 = 0 → d 1 = 1 → d 2 = 1 → d 3 = 0 → (decode w).mnemonic = .XOR) ∧
    (d 0 = 0 → d 1 = 1 → d 2 = 1 → d 3 = 1 → (decode w).mnemonic = .CPY)

/-- The four layouts, as numbers: whatever instruction a word decodes to, its fixed bits and each of its fields are the
bits R63 to R66 name, immediates read as signed numbers and register numbers as unsigned ones. -/
def Obligations.FieldsOfTheFourFormats : Prop :=
  ∀ w : IWord,
    let field := fun lo n => w.toNat / 2 ^ lo % 2 ^ n
    let signed := fun n (v : Nat) => if v < 2 ^ (n - 1) then (v : Int) else (v : Int) - 2 ^ n
    match decode w with
    | .bne imm11 rs => field 15 1 = 1 ∧ imm11 = signed 11 (field 4 11) ∧ rs.val = field 0 4
    | .load imm5 rb rt =>
      field 15 1 = 0 ∧ field 14 1 = 0 ∧ field 13 1 = 0 ∧ imm5 = signed 5 (field 8 5) ∧ rb.val = field 4 4 ∧
        rt.val = field 0 4
    | .store imm5 rb rt =>
      field 15 1 = 0 ∧ field 14 1 = 0 ∧ field 13 1 = 1 ∧ imm5 = signed 5 (field 8 5) ∧ rb.val = field 4 4 ∧
        rt.val = field 0 4
    | .add rd rs2 rs1 =>
      field 15 1 = 0 ∧ field 14 1 = 1 ∧ field 12 2 = 0 ∧ rd.val = field 8 4 ∧ rs2.val = field 4 4 ∧ rs1.val = field 0 4
    | .sll rd rs2 rs1 =>
      field 15 1 = 0 ∧ field 14 1 = 1 ∧ field 12 2 = 1 ∧ rd.val = field 8 4 ∧ rs2.val = field 4 4 ∧ rs1.val = field 0 4
    | .xor rd rs2 rs1 =>
      field 15 1 = 0 ∧ field 14 1 = 1 ∧ field 12 2 = 2 ∧ rd.val = field 8 4 ∧ rs2.val = field 4 4 ∧ rs1.val = field 0 4
    | .cpy rd imm8 =>
      field 15 1 = 0 ∧ field 14 1 = 1 ∧ field 12 2 = 3 ∧ rd.val = field 8 4 ∧ imm8 = signed 8 (field 0 8)

/-- The `match` and `mask` columns of the opcode map: a word selects exactly the row of the instruction it decodes to, so
no two rows overlap and none is missing (R70). -/
def Obligations.MaskAndMatchSelectTheDecodedRow : Prop :=
  ∀ (m : Mnemonic) (w : IWord), m.selects w = true ↔ (decode w).mnemonic = m

/-- The word built from the fields, as R78 gives it in numbers: an immediate's field is its value modulo 2 to the field's
width, and no two fields overlap. -/
def Obligations.WordBuiltFromFieldsAsNumbers : Prop :=
  (∀ (imm11 : Int) (rs : RegId),
    ((encode (.bne imm11 rs)).toNat : Int) = 0x8000 + imm11 % 2 ^ 11 * 2 ^ 4 + rs.val) ∧
  (∀ (imm5 : Int) (rb rt : RegId),
    ((encode (.load imm5 rb rt)).toNat : Int) = 0x0000 + imm5 % 2 ^ 5 * 2 ^ 8 + rb.val * 2 ^ 4 + rt.val) ∧
  (∀ (imm5 : Int) (rb rt : RegId),
    ((encode (.store imm5 rb rt)).toNat : Int) = 0x2000 + imm5 % 2 ^ 5 * 2 ^ 8 + rb.val * 2 ^ 4 + rt.val) ∧
  (∀ rd rs2 rs1 : RegId, (encode (.add rd rs2 rs1)).toNat = 0x4000 + rd.val * 2 ^ 8 + rs2.val * 2 ^ 4 + rs1.val) ∧
  (∀ rd rs2 rs1 : RegId, (encode (.sll rd rs2 rs1)).toNat = 0x5000 + rd.val * 2 ^ 8 + rs2.val * 2 ^ 4 + rs1.val) ∧
  (∀ rd rs2 rs1 : RegId, (encode (.xor rd rs2 rs1)).toNat = 0x6000 + rd.val * 2 ^ 8 + rs2.val * 2 ^ 4 + rs1.val) ∧
  (∀ (rd : RegId) (imm8 : Int), ((encode (.cpy rd imm8)).toNat : Int) = 0x7000 + rd.val * 2 ^ 8 + imm8 % 2 ^ 8)

/-- The source's own encoding examples decode to the instructions they stand for, one word of each of six instructions
and the spec's `XOR $2, $3, $14` (R79, R103). -/
def Obligations.SourceEncodingExamplesDecode : Prop :=
  decode 0x8045#16 = .bne 4 5 ∧ decode 0x0445#16 = .load 4 4 5 ∧ decode 0x28C5#16 = .store 8 12 5 ∧
  decode 0x4321#16 = .add 3 2 1 ∧ decode 0x5321#16 = .sll 3 2 1 ∧ decode 0x6E32#16 = .xor 14 3 2 ∧
  decode 0x728B#16 = .cpy 2 (-117)

/-! ### The step: fetch, start, end, faults -/

/-- A step runs the decoded instruction: when slot `k` of the program lies at the pc and its word decodes to `i`, the
step is `exec` of `i` on the very same state. The step adds nothing around `exec`: each meaning moves the pc itself, and
there is no delay slot (R47, R149; that slots are 4 addresses apart is the spec's decision D2, log 10). -/
def Obligations.StepRunsTheFetchedInstruction : Prop :=
  ∀ (s : State) (k : Nat) (w : IWord) (i : Instr), k < 2 ^ 30 →
    s.pc = s.launch.progBase + BitVec.ofNat 32 (4 * k) → s.launch.prog[k]? = some w → decode w = i →
    step s = exec i s

/-- The host's load of one instruction at the pc makes that instruction the next one to run, whatever its operands and
whatever the state was (R47, R78, R144; the form of the load is the model's: log 6). -/
def Obligations.PlacedInstructionIsTheOneThatRuns : Prop :=
  ∀ (s : State) (i : Instr), i.WellFormed →
    step (s.withFetchWord 16 (encode i).toNat) = exec i (s.withFetchWord 16 (encode i).toNat)

/-- A run starts with the first instruction of the program, at `PROG_BASE`, whatever the base, the registers and the
data memory hold (R141; that the pc starts there is the spec's decision D29). -/
def Obligations.RunStartsAtProgBase : Prop :=
  ∀ (l : Launch) (dmemInit : Memory) (regs : Vector Word 16) (w : IWord) (rest : List IWord), l.prog = w :: rest →
    (State.start l dmemInit regs).pc = l.progBase ∧ (State.start l dmemInit regs).regs = regs ∧
    (State.start l dmemInit regs).mem = dmemInit ∧
    step (State.start l dmemInit regs) = exec (decode w) (State.start l dmemInit regs)

/-- What reset leaves where the host supplies nothing: the pc at `PROG_BASE`, which is at its default 0, and no word of
data memory written (R36, R140; D4, D16, D29). Three clauses are the model's choice: every register holds 0 (log 4, in
place of D15's unspecified values), the program is empty (log 6), and `DMEM` is the largest one, exactly the multiples of
4 below 2^32 (log 7, "the largest machine" of R46). The empty program is over at once, since its base is already the
address just after its end (R47, R143, D5), with the outcome in the model's form (log 9). -/
def Obligations.ResetHoldsNoProgramAndHalts : Prop :=
  State.reset.pc = State.reset.launch.progBase ∧ State.reset.pc = 0 ∧ (∀ a, State.reset.mem.cell a = none) ∧
  (∀ r, State.reset.reg r = 0) ∧ State.reset.launch.prog = [] ∧
  (∀ a, State.reset.launch.inDmem a = true ↔ a % 4 = 0 ∧ a < 2 ^ 32) ∧ step State.reset = .fault (.halted 0)

/-- A run ends normally exactly when the pc is the address just after the program's last instruction, and the result is
`x[15]`: a program of at most 2^30 - 1 words (U13), so that its end does not wrap onto its base. No instruction ends a
run (R128, R143; reading "points to nothing" so is the spec's decision D5, and the outcome's form is log 9). -/
def Obligations.RunEndsExactlyAfterTheLastInstruction : Prop :=
  ∀ (s : State) (v : Word), s.launch.prog.length < 2 ^ 30 →
    (step s = .fault (.halted v) ↔
      s.pc = s.launch.progBase + BitVec.ofNat 32 (4 * s.launch.prog.length) ∧ v = s.reg 15)

/-- A step stops with `FetchMisaligned` exactly when the pc is not a whole number of slots from `PROG_BASE`, recording
the pc (R30, R47, R121; the spec's decision D6). -/
def Obligations.FetchMisalignedExactlyOffASlot : Prop :=
  ∀ (s : State) (p : Word),
    step s = .fault (.fetchMisaligned p) ↔ (s.pc - s.launch.progBase).toNat % 4 ≠ 0 ∧ p = s.pc

/-- A step stops with `FetchOutsideProgram` exactly when the pc is on a slot past the one just after the program's last
instruction, distances taken modulo 2^32 so that an address before the base counts too (R47, R121, R143; the spec's
decision D5). -/
def Obligations.FetchOutsideExactlyPastTheEnd : Prop :=
  ∀ (s : State) (p : Word),
    step s = .fault (.fetchOutsideProgram p) ↔
      (s.pc - s.launch.progBase).toNat % 4 = 0 ∧
        4 * s.launch.prog.length < (s.pc - s.launch.progBase).toNat ∧ p = s.pc

/-- The pc leaves the slots only through a taken BNE whose immediate is not a multiple of 4 (R30, R121; that
every other instruction moves the pc by 4 is the spec's decision D2). -/
def Obligations.PcLeavesSlotsOnlyByTakenBranch : Prop :=
  ∀ s t : State, (s.pc - s.launch.progBase).toNat % 4 = 0 → step s = .next t →
    (t.pc - t.launch.progBase).toNat % 4 ≠ 0 →
    ∃ (w : IWord) (imm11 : Int) (rs : RegId),
      s.fetch = .ok w ∧ decode w = .bne imm11 rs ∧ s.reg rs ≠ 0 ∧ imm11 % 4 ≠ 0

/-- An instruction stops only in a LOAD or STORE with a bad effective address: `DataMisaligned` at an address that is no
multiple of 4, whether or not it is in `DMEM`, else `DataOutOfRange` outside `DMEM` (R43, R44, R46, R123; the spec's
decisions D8, D9, D17). -/
def Obligations.ExecStopsExactlyOnBadDataAddress : Prop :=
  ∀ (i : Instr) (s : State) (f : Fault),
    exec i s = .fault f ↔
      ∃ (imm5 : Int) (rb rt : RegId), (i = .load imm5 rb rt ∨ i = .store imm5 rb rt) ∧
        (((s.effAddr imm5 rb).toNat % 4 ≠ 0 ∧ f = .dataMisaligned (s.effAddr imm5 rb)) ∨
          ((s.effAddr imm5 rb).toNat % 4 = 0 ∧ s.launch.inDmem (s.effAddr imm5 rb).toNat = false ∧
            f = .dataOutOfRange (s.effAddr imm5 rb)))

/-- No step is ever refused: every word is an instruction with a meaning, in the one mode there is (R71, R120, R126). -/
def Obligations.StepIsNeverRefused : Prop :=
  ∀ (s : State) (r : Refusal), step s ≠ .refused r

/-! ### Invariants and the whole machine -/

/-- The invariant holds at reset: data memory is in its canonical form, which is the model's own choice of how to hold
it (log 5, DESIGN CHOICE), and lists only bytes of words in `DMEM` (R44, R56). -/
def Obligations.ResetMemoryIsCanonicalAndInDmem : Prop := State.reset.Inv

/-- Every step keeps data memory listing only bytes below 2^32 of words in `DMEM`: a STORE never writes outside it (R44,
R46, R56; D3, D9). It keeps memory in its canonical form too, which is no rule of the spec but the model's own choice of
how to hold memory (log 5, DESIGN CHOICE). -/
def Obligations.StepKeepsMemoryCanonicalAndInDmem : Prop :=
  ∀ s t : State, s.Inv → step s = .next t → t.Inv

/-- No step changes the launch arguments, and so none changes what a later fetch returns at any address:
self-modifying code is not possible (R53, R149; the two memories are the spec's decision D11). -/
def Obligations.NoStepChangesTheProgram : Prop :=
  ∀ s t : State, step s = .next t →
    t.launch = s.launch ∧ ∀ (p : Word) (w : IWord), (t.setPc p).fetch = .ok w ↔ (s.setPc p).fetch = .ok w

/-- A program behaves the same at every base: moving `PROG_BASE` and the pc by the same amount moves the pc of the next
state, and the pc a fetch fault records, by that amount and changes nothing else (R141, from R81). -/
def Obligations.RelocatedProgramRunsTheSame : Prop :=
  ∀ (s : State) (d : Word), step (s.relocate d) = Result.relocate d (step s)

/-- No program can observe the byte order: states that are the same but for `ENDIAN` and the order of the bytes in each
word step to states that are the same but for it, or stop for the same reason (R42, D10). That the two byte orders are
each other's mirror within a word rests on the model's reading of big endian, which R42 does not spell out (log 8,
DEDUCED). -/
def Obligations.ByteOrderIsNotObservable : Prop :=
  ∀ s t : State, s.EndianTwin t →
    match step s, step t with
    | .next s', .next t' => s'.EndianTwin t'
    | .fault f, .fault g => f = g
    | .refused _, .refused _ => True
    | _, _ => False

/-- An instruction writes and reads only the registers the table of R24 lists for it (`Instr.reads`, `Instr.writes`): it
changes no register but the one it writes, and two states that agree on the pc, the memories and the registers it reads
give it the same outcome: the same reason to stop, or the same pc, memories and written register. That each listed
register does bear on the outcome is `Obligations.EachListedOperandBearsOnTheResult`. -/
def Obligations.RegistersReadAndWrittenByTheTable : Prop :=
  (∀ (i : Instr) (s t : State) (r : RegId), exec i s = .next t → i.writes ≠ some r → t.reg r = s.reg r) ∧
  ∀ (i : Instr) (s₁ s₂ : State), s₁.pc = s₂.pc → s₁.mem = s₂.mem → s₁.launch = s₂.launch →
    (∀ r ∈ i.reads, s₁.reg r = s₂.reg r) →
    match exec i s₁, exec i s₂ with
    | .next t₁, .next t₂ =>
      t₁.pc = t₂.pc ∧ t₁.mem = t₂.mem ∧ t₁.launch = t₂.launch ∧ ∀ r, i.writes = some r → t₁.reg r = t₂.reg r
    | .fault f, .fault g => f = g
    | .refused _, .refused _ => True
    | _, _ => False

/-- The successors of every instruction are known from its text: the next instruction, and for a BNE whose register is
not zero the constant target (R29, R81; the step of 4 is the spec's decision D2). -/
def Obligations.SuccessorsAreNextOrBranchTarget : Prop :=
  ∀ (i : Instr) (s t : State), exec i s = .next t →
    t.pc = s.pc + 4 ∨
      ∃ (imm11 : Int) (rs : RegId), i = .bne imm11 rs ∧ s.reg rs ≠ 0 ∧ t.pc = s.pc + BitVec.ofInt 32 imm11

/-- BNE, ADD, SLL, XOR and CPY perform no data memory access: each completes, leaves memory alone, and does the same
whatever memory holds. LOAD writes no memory (R48). -/
def Obligations.OnlyLoadAndStoreTouchMemory : Prop :=
  (∀ (i : Instr) (s : State) (m : Memory), i.mnemonic ≠ .LOAD → i.mnemonic ≠ .STORE →
    ∃ t, exec i s = .next t ∧ t.mem = s.mem ∧ exec i { s with mem := m } = .next { t with mem := m }) ∧
  (∀ (i : Instr) (s t : State), i.mnemonic = .LOAD → exec i s = .next t → t.mem = s.mem)

/-! ### Type 1 -/

/-- BNE completes for every register and immediate: with a non-zero register the pc becomes its own address plus the
immediate, with a zero one the next instruction's, modulo 2^32; every register, all memory and the program stay as they
are (R80; the step of 4 and the base of the offset are the spec's decision D2, the wrap D3). -/
def Obligations.BneBranchesOnNonZero : Prop :=
  ∀ (s : State) (imm11 : Int) (rs : RegId),
    ∃ t, exec (.bne imm11 rs) s = .next t ∧
      ((s.reg rs).toNat ≠ 0 → (t.pc.toNat : Int) = ((s.pc.toNat : Int) + imm11) % 2 ^ 32) ∧
      ((s.reg rs).toNat = 0 → t.pc.toNat = (s.pc.toNat + 4) % 2 ^ 32) ∧
      (∀ r, t.reg r = s.reg r) ∧ (∀ a, t.mem.cell a = s.mem.cell a) ∧ t.mem = s.mem ∧ t.launch = s.launch

/-- BNE's two corners: offset 0 with a non-zero register changes nothing at all, so the same BNE is next again (a hang);
offset +4 goes to the next instruction whatever the register holds, and changes nothing else (R72, R80 b, c; the step of 4 is
the spec's decision D2). -/
def Obligations.BneToItselfHangsAndByFourDoesNothing : Prop :=
  (∀ (s : State) (rs : RegId), s.reg rs ≠ 0 → exec (.bne 0 rs) s = .next s) ∧
  (∀ (s : State) (rs : RegId), exec (.bne 4 rs) s = .next s.nextPc)

/-- XOR then BNE compares two registers: the branch is taken, from the BNE's own address, exactly when they differ. The
BNE sees the value the instruction just before it left, and no delay slot runs (R77, R84, R103; the step of 4 is the
spec's decision D2, the wrap D3, no delay slot D24). -/
def Obligations.XorThenBneComparesTwoRegisters : Prop :=
  ∀ (s : State) (rd rs2 rs1 : RegId) (imm11 : Int),
    ∃ t u, exec (.xor rd rs2 rs1) s = .next t ∧ exec (.bne imm11 rd) t = .next u ∧
      (s.reg rs1 = s.reg rs2 → u.pc.toNat = (s.pc.toNat + 8) % 2 ^ 32) ∧
      (s.reg rs1 ≠ s.reg rs2 → (u.pc.toNat : Int) = ((s.pc.toNat : Int) + 4 + imm11) % 2 ^ 32)

/-! ### Type 2 -/

/-- The effective address is the base register plus 4 times the signed immediate, modulo 2^32 (R45, R90; the wrap is the
spec's decision D3, the unscaled base and the scaled offset D7). -/
def Obligations.EffectiveAddressIsBasePlusScaledOffset : Prop :=
  ∀ (s : State) (imm5 : Int) (rb : RegId),
    ((s.effAddr imm5 rb).toNat : Int) = (((s.reg rb).toNat : Int) + 4 * imm5) % 2 ^ 32

/-- LOAD completes at every aligned address of `DMEM`: `rt` gets the whole word, each byte the one last written, or the
free value's where nothing wrote it; every other register, all memory and the program stay as they are, and the pc goes
on by 4. `rt` may be the base register (R42, R44, R91; the spec's decisions D1, D2, D8, D9, D10; it holds for every value
of the free value, log 5). Which byte of the word is which in big endian, `8 * (3 - k)`, is the model's reading, which R42
does not spell out (log 8, DEDUCED). -/
def Obligations.LoadReadsTheWord : Prop :=
  ∀ (s : State) (imm5 : Int) (rb rt : RegId),
    (s.effAddr imm5 rb).toNat % 4 = 0 → s.launch.inDmem (s.effAddr imm5 rb).toNat = true →
    ∃ t, exec (.load imm5 rb rt) s = .next t ∧
      (∀ k, k < 4 →
        let lo := if s.launch.endian = .little then 8 * k else 8 * (3 - k)
        (∀ b, s.mem.cell ((s.effAddr imm5 rb).toNat + k) = some b → (t.reg rt).extractLsb' lo 8 = b) ∧
        (s.mem.cell ((s.effAddr imm5 rb).toNat + k) = none →
          (t.reg rt).extractLsb' lo 8 =
            (Sys2Proof.Config.unwrittenWord (s.effAddr imm5 rb).toNat).extractLsb' lo 8)) ∧
      (∀ r, r ≠ rt → t.reg r = s.reg r) ∧ t.pc.toNat = (s.pc.toNat + 4) % 2 ^ 32 ∧
      (∀ a, t.mem.cell a = s.mem.cell a) ∧ t.mem = s.mem ∧ t.launch = s.launch

/-- STORE completes at every aligned address of `DMEM`: the four bytes at the effective address become the bytes of
`rt`, the lowest at bits 7:0 in little endian and at bits 31:24 in big endian; every other byte, every register and the
program stay as they are, and the pc goes on by 4 (R42, R44, R92; the spec's decisions D1, D2, D8, D9, D10). The big endian
order is the model's reading, which R42 does not spell out (log 8, DEDUCED). -/
def Obligations.StoreWritesTheWord : Prop :=
  ∀ (s : State) (imm5 : Int) (rb rt : RegId),
    (s.effAddr imm5 rb).toNat % 4 = 0 → s.launch.inDmem (s.effAddr imm5 rb).toNat = true →
    ∃ t, exec (.store imm5 rb rt) s = .next t ∧
      (∀ k, k < 4 →
        t.mem.cell ((s.effAddr imm5 rb).toNat + k) =
          some ((s.reg rt).extractLsb' (if s.launch.endian = .little then 8 * k else 8 * (3 - k)) 8)) ∧
      (∀ a, a < (s.effAddr imm5 rb).toNat ∨ (s.effAddr imm5 rb).toNat + 4 ≤ a → t.mem.cell a = s.mem.cell a) ∧
      (∀ r, t.reg r = s.reg r) ∧ t.pc.toNat = (s.pc.toNat + 4) % 2 ^ 32 ∧ t.launch = s.launch

/-- A LOAD right after a STORE: from the same address it gives the stored word, all 32 bits; from any other address it
gives what it would have given before the STORE (R50, the spec's decision D25). -/
def Obligations.LoadSeesTheLatestStore : Prop :=
  ∀ (s t : State) (imm5 imm5' : Int) (rb rt rb' rt' : RegId), exec (.store imm5 rb rt) s = .next t →
    (t.effAddr imm5' rb' = s.effAddr imm5 rb →
      ∃ u, exec (.load imm5' rb' rt') t = .next u ∧ u.reg rt' = s.reg rt) ∧
    (t.effAddr imm5' rb' ≠ s.effAddr imm5 rb → ∀ v, exec (.load imm5' rb' rt') s = .next v →
      ∃ u, exec (.load imm5' rb' rt') t = .next u ∧ u.reg rt' = v.reg rt')

/-! ### Type 3 -/

/-- ADD: its word is `0100 dddd bbbb aaaa`; it completes for all registers, `rd` gets the sum modulo 2^32; every other register, all memory and the program stay
as they are, and the pc goes on by 4 (R100, R101; the width is the spec's decision D1, the wrap D12, the step of 4 D2). -/
def Obligations.AddWritesTheSumModulo : Prop :=
  ∀ (s : State) (rd rs2 rs1 : RegId),
    decode (BitVec.ofNat 16 (0x4000 + rd.val * 2 ^ 8 + rs2.val * 2 ^ 4 + rs1.val)) = .add rd rs2 rs1 ∧
    ∃ t, exec (.add rd rs2 rs1) s = .next t ∧
      (t.reg rd).toNat = ((s.reg rs1).toNat + (s.reg rs2).toNat) % 2 ^ 32 ∧
      (∀ r, r ≠ rd → t.reg r = s.reg r) ∧ t.pc.toNat = (s.pc.toNat + 4) % 2 ^ 32 ∧
      (∀ a, t.mem.cell a = s.mem.cell a) ∧ t.mem = s.mem ∧ t.launch = s.launch

/-- SLL: its word is `0101 dddd bbbb aaaa`; it completes for all registers and amounts: with the amount read as a signed number, 0 to 31 multiplies by its power
of two modulo 2^32, -31 to -1 divides the signed value by it rounding down, and every other amount gives the free value
of the two operands; every other register, all memory and the program stay as they are, and the pc goes on by 4 (R100,
R102; the sign fill and the lost bits are the spec's decision D13, log 2; the free value is D14, log 1; the width is D1,
the step of 4 D2). -/
def Obligations.SllShiftsByTheSignedAmount : Prop :=
  ∀ (s : State) (rd rs2 rs1 : RegId),
    decode (BitVec.ofNat 16 (0x5000 + rd.val * 2 ^ 8 + rs2.val * 2 ^ 4 + rs1.val)) = .sll rd rs2 rs1 ∧
    ∃ t, exec (.sll rd rs2 rs1) s = .next t ∧
      (0 ≤ (s.reg rs2).toInt → (s.reg rs2).toInt < 32 →
        (t.reg rd).toNat = (s.reg rs1).toNat * 2 ^ (s.reg rs2).toInt.toNat % 2 ^ 32) ∧
      (-32 < (s.reg rs2).toInt → (s.reg rs2).toInt < 0 →
        (t.reg rd).toInt = (s.reg rs1).toInt / 2 ^ (-(s.reg rs2).toInt).toNat) ∧
      ((s.reg rs2).toInt ≤ -32 ∨ 32 ≤ (s.reg rs2).toInt →
        t.reg rd = Sys2Proof.Config.shiftOor (s.reg rs1) (s.reg rs2)) ∧
      (∀ r, r ≠ rd → t.reg r = s.reg r) ∧ t.pc.toNat = (s.pc.toNat + 4) % 2 ^ 32 ∧
      (∀ a, t.mem.cell a = s.mem.cell a) ∧ t.mem = s.mem ∧ t.launch = s.launch

/-- XOR: its word is `0110 dddd bbbb aaaa`; it completes for all registers, bit `k` of `rd` becomes the exclusive or of
the operands' bits `k`, equal operands and only equal ones give 0; every other register, all memory and the program stay
as they are, and the pc goes on by 4 (R103; the width of 32 bits is the spec's decision D1, log 3, and the step of 4 D2,
log 10). -/
def Obligations.XorIsBitwise : Prop :=
  ∀ (s : State) (rd rs2 rs1 : RegId),
    decode (BitVec.ofNat 16 (0x6000 + rd.val * 2 ^ 8 + rs2.val * 2 ^ 4 + rs1.val)) = .xor rd rs2 rs1 ∧
    ∃ t, exec (.xor rd rs2 rs1) s = .next t ∧
      (∀ k, k < 32 → (t.reg rd).getLsbD k = ((s.reg rs1).getLsbD k != (s.reg rs2).getLsbD k)) ∧
      (t.reg rd = 0 ↔ s.reg rs1 = s.reg rs2) ∧
      (∀ r, r ≠ rd → t.reg r = s.reg r) ∧ t.pc.toNat = (s.pc.toNat + 4) % 2 ^ 32 ∧
      (∀ a, t.mem.cell a = s.mem.cell a) ∧ t.mem = s.mem ∧ t.launch = s.launch

/-- The values the source's own examples fix, whatever registers hold the operands: 10 + (-4) = 6; 127 << 7 = 16256;
16256 + 127 = 16383; 16383 << 2 = 65532; 65532 + 3 = 65535, a positive signed number; 10 << (-2) = 2 (R106). -/
def Obligations.SourceArithmeticValues : Prop :=
  ∀ (s : State) (rd rs2 rs1 : RegId) (a b v : Int), (s.reg rs1).toInt = a → (s.reg rs2).toInt = b →
    ((a = 10 ∧ b = -4 ∧ v = 6) ∨ (a = 16256 ∧ b = 127 ∧ v = 16383) ∨ (a = 65532 ∧ b = 3 ∧ v = 65535) →
      ∃ t, exec (.add rd rs2 rs1) s = .next t ∧ (t.reg rd).toInt = v) ∧
    ((a = 127 ∧ b = 7 ∧ v = 16256) ∨ (a = 16383 ∧ b = 2 ∧ v = 65532) ∨ (a = 10 ∧ b = -2 ∧ v = 2) →
      ∃ t, exec (.sll rd rs2 rs1) s = .next t ∧ (t.reg rd).toInt = v)

/-! ### Type 4 and the registers -/

/-- CPY completes for every register and constant: `rd` holds the signed constant, modulo 2^32, whatever it held before;
for a constant of its 8-bit field the register's signed value is the constant itself; every other register, all memory
and the program stay as they are, and the pc goes on by 4 (R110; the width extended to is the spec's decision D1, the
step of 4 D2). -/
def Obligations.CpyWritesTheSignedConstant : Prop :=
  ∀ (s : State) (rd : RegId) (imm8 : Int),
    ∃ t, exec (.cpy rd imm8) s = .next t ∧ ((t.reg rd).toNat : Int) = imm8 % 2 ^ 32 ∧
      (-128 ≤ imm8 → imm8 ≤ 127 → (t.reg rd).toInt = imm8) ∧
      (∀ r, r ≠ rd → t.reg r = s.reg r) ∧ t.pc.toNat = (s.pc.toNat + 4) % 2 ^ 32 ∧
      (∀ a, t.mem.cell a = s.mem.cell a) ∧ t.mem = s.mem ∧ t.launch = s.launch

/-- No register is hardwired, `$0` included: a constant of CPY's field written to any register is there, and the very next
instruction reads it from there as an operand (R23, R145; D1, D12). -/
def Obligations.EveryRegisterReadsBackWhatWasWritten : Prop :=
  ∀ (s : State) (r rd q : RegId) (imm8 : Int), -128 ≤ imm8 → imm8 ≤ 127 → q ≠ r →
    ∃ t u, exec (.cpy r imm8) s = .next t ∧ exec (.add rd q r) t = .next u ∧
      (t.reg r).toInt = imm8 ∧ ((u.reg rd).toNat : Int) = (imm8 + (s.reg q).toNat) % 2 ^ 32

/-! ### What `DMEM` holds, and that every operand counts -/

/-- What `DMEM` holds for any regions the host supplies: exactly the multiples of 4 whose whole word, all four bytes of
it, lies in one region (R44, R46; that `DMEM` is given by regions is the model's form of D9's parameter, log 7). -/
def Obligations.DmemHoldsExactlyTheWholeWordsOfItsRegions : Prop :=
  ∀ (l : Launch) (a : Nat),
    l.inDmem a = true ↔
      a % 4 = 0 ∧ ∃ r ∈ l.dmem, ∀ b, a ≤ b → b < a + 4 → r.base ≤ b ∧ b < r.base + 4 * r.words

/-- Every register the table of R24 lists as read bears on what the instruction does: two states that differ in that
register alone, and in which the instruction completes, get different results, in the pc, in memory or in the register
written. No other register does. The two forms in which a listed register cannot matter are the spec's own: BNE with the
offset +4, where taken and not taken coincide (R72, R80 c), and XOR of a register with itself, which is 0 whatever it
holds (R103 a). The step of 4 is the spec's decision D2, the wrap D12, sign and loss in shifts D13, the words stored and
loaded D8 and D9. -/
def Obligations.EachListedOperandBearsOnTheResult : Prop :=
  ∀ (i : Instr) (r : RegId), i.WellFormed →
    ((∃ s₁ s₂ t₁ t₂ : State,
        s₁.pc = s₂.pc ∧ s₁.mem = s₂.mem ∧ s₁.launch = s₂.launch ∧ (∀ q, q ≠ r → s₁.reg q = s₂.reg q) ∧
          exec i s₁ = .next t₁ ∧ exec i s₂ = .next t₂ ∧
          (t₁.pc ≠ t₂.pc ∨ t₁.mem ≠ t₂.mem ∨ ∃ w, i.writes = some w ∧ t₁.reg w ≠ t₂.reg w)) ↔
      r ∈ i.reads ∧ (∀ rs, i ≠ .bne 4 rs) ∧ ∀ rd rs, i ≠ .xor rd rs rs)

end
end

