-- ==== Sys2Proof/Laws/Decode.lean ====
section
/-! SUPPORT. The bits of a field placed in a word, and the range of a well-formed immediate: what every fact about the
encoder is read off. -/

namespace Sys2Proof

/-- Bit `k` of a register field placed from bit `lo` up (R69, R78). -/
theorem regBits_getLsbD (r : RegId) (lo : Nat) {k : Nat} (hk : k < 16) :
    (regBits r lo).getLsbD k = (decide (lo ≤ k) && r.val.testBit (k - lo)) := by
  by_cases h : k < lo
  · simp [regBits, hk, h]
  · have hlt : k - lo < 16 := by omega
    simp only [regBits, BitVec.getLsbD_shiftLeft, BitVec.getLsbD_ofNat, hk, h, hlt, show lo ≤ k by omega, decide_true,
      decide_false, Bool.not_false, Bool.true_and]

/-- Bit `k` of an immediate field placed from bit `lo` up (R68, R78). -/
theorem immBits_getLsbD (n : Nat) (imm : Int) (lo : Nat) {k : Nat} (hk : k < 16) :
    (immBits n imm lo).getLsbD k = (decide (lo ≤ k) && (BitVec.ofInt n imm).getLsbD (k - lo)) := by
  by_cases h : k < lo
  · simp [immBits, hk, h]
  · simp [immBits, hk, h, show lo ≤ k by omega]

/-- A register number has no bit above its four (R69). -/
theorem RegId.testBit_high (r : RegId) {k : Nat} (hk : 4 ≤ k) : r.val.testBit k = false :=
  Nat.testBit_lt_two_pow (lt_of_lt_of_le r.isLt (Nat.pow_le_pow_right (show 0 < 2 by decide) hk))

/-- BNE is well formed when its immediate is in -1024 .. +1023 (R63). -/
@[simp] theorem wellFormed_bne (imm11 : Int) (rs : RegId) :
    (Instr.bne imm11 rs).wellFormed = true ↔ -1024 ≤ imm11 ∧ imm11 ≤ 1023 := by
  simp [Instr.wellFormed, fitsImm11]

/-- LOAD is well formed when its immediate is in -16 .. +15 (R64). -/
@[simp] theorem wellFormed_load (imm5 : Int) (rb rt : RegId) :
    (Instr.load imm5 rb rt).wellFormed = true ↔ -16 ≤ imm5 ∧ imm5 ≤ 15 := by
  simp [Instr.wellFormed, fitsImm5]

/-- STORE is well formed when its immediate is in -16 .. +15 (R64). -/
@[simp] theorem wellFormed_store (imm5 : Int) (rb rt : RegId) :
    (Instr.store imm5 rb rt).wellFormed = true ↔ -16 ≤ imm5 ∧ imm5 ≤ 15 := by
  simp [Instr.wellFormed, fitsImm5]

/-- CPY is well formed when its immediate is in -128 .. +127 (R66). -/
@[simp] theorem wellFormed_cpy (rd : RegId) (imm8 : Int) :
    (Instr.cpy rd imm8).wellFormed = true ↔ -128 ≤ imm8 ∧ imm8 ≤ 127 := by
  simp [Instr.wellFormed, fitsImm8]

end Sys2Proof
end

