-- ==== Sys2Proof/Laws/State.lean ====
section
/-! SUPPORT. What each update of the state leaves in each field, and reading a register after writing one. -/

namespace Sys2Proof.Machine

variable (s : State) (r q : RegId) (v t : Word)

@[simp] theorem State.setReg_pc : (s.setReg r v).pc = s.pc := rfl
@[simp] theorem State.setReg_mem : (s.setReg r v).mem = s.mem := rfl
@[simp] theorem State.setReg_launch : (s.setReg r v).launch = s.launch := rfl

@[simp] theorem State.setPc_pc : (s.setPc t).pc = t := rfl
@[simp] theorem State.setPc_regs : (s.setPc t).regs = s.regs := rfl
@[simp] theorem State.setPc_mem : (s.setPc t).mem = s.mem := rfl
@[simp] theorem State.setPc_launch : (s.setPc t).launch = s.launch := rfl
@[simp] theorem State.setPc_reg : (s.setPc t).reg q = s.reg q := rfl

@[simp] theorem State.nextPc_pc : s.nextPc.pc = s.pc + 4 := rfl
@[simp] theorem State.nextPc_regs : s.nextPc.regs = s.regs := rfl
@[simp] theorem State.nextPc_mem : s.nextPc.mem = s.mem := rfl
@[simp] theorem State.nextPc_launch : s.nextPc.launch = s.launch := rfl
@[simp] theorem State.nextPc_reg : s.nextPc.reg q = s.reg q := rfl

@[simp] theorem State.loadWord_pc (w : IWord) : (s.loadWord w).pc = s.pc := rfl
@[simp] theorem State.loadWord_regs (w : IWord) : (s.loadWord w).regs = s.regs := rfl
@[simp] theorem State.loadWord_mem (w : IWord) : (s.loadWord w).mem = s.mem := rfl
@[simp] theorem State.loadWord_prog (w : IWord) : (s.loadWord w).launch.prog = [w] := rfl
@[simp] theorem State.loadWord_progBase (w : IWord) : (s.loadWord w).launch.progBase = s.pc := rfl

/-- Reading any register after writing one: the written value there, the old value elsewhere (R23). -/
@[simp] theorem State.reg_setReg : (s.setReg r v).reg q = if q = r then v else s.reg q := by
  simp only [State.reg, State.setReg, Vector.getElem_set, Fin.ext_iff, eq_comm]

/-- Two register files that read alike are the same. -/
theorem State.regs_ext {s t : State} (h : ∀ q, s.reg q = t.reg q) : s.regs = t.regs := by
  apply Vector.ext
  intro i hi
  exact h ⟨i, hi⟩

end Sys2Proof.Machine
end

