-- ==== Sys2Proof/Laws/Operands.lean ====
section
/-! SUPPORT. The operand forms as plain arithmetic: a signed immediate modulo 2^32 (R7, R68), a right shift as a floor
division and a left shift as a product (R8, R102). -/

namespace Sys2Proof.Machine

/-- A signed number as a word is that number modulo 2^32 (R7). -/
theorem immWord_toNat (imm : Int) : ((immWord imm).toNat : Int) = imm % 2 ^ 32 := by
  rw [immWord, BitVec.toNat_ofInt, Int.toNat_of_nonneg (Int.emod_nonneg _ (by decide))]
  norm_num

/-- With sign fill, a right shift by `n` divides the signed value by `2^n`, rounding down (R8 `asr`, R102). -/
theorem shiftRight_arith_toInt (a : Word) (n : Nat) : (shiftRight true a n).toInt = a.toInt / 2 ^ n := by
  simp [shiftRight, BitVec.toInt_sshiftRight, Int.shiftRight_eq_div_pow]

/-- With zero fill, a right shift by `n` divides the unsigned value by `2^n` (R102). -/
theorem shiftRight_zero_toNat (a : Word) (n : Nat) : (shiftRight false a n).toNat = a.toNat / 2 ^ n := by
  simp [shiftRight, Nat.shiftRight_eq_div_pow]

/-- SLL's left shift, its right shift and its free value (R102). -/
theorem shiftLeftSigned_cases (a amount : Word) :
    (0 ≤ amount.toInt ∧ amount.toInt < 32 ∧ shiftLeftSigned a amount = a <<< amount.toInt.toNat) ∨
      (-32 < amount.toInt ∧ amount.toInt < 0 ∧
        shiftLeftSigned a amount = shiftRight Config.shiftRightArith a (-amount.toInt).toNat) ∨
      ((amount.toInt ≤ -32 ∨ 32 ≤ amount.toInt) ∧ shiftLeftSigned a amount = Config.shiftOor a amount) := by
  unfold shiftLeftSigned
  split
  · rename_i h
    exact .inl ⟨h.1, h.2, rfl⟩
  · split
    · rename_i h
      exact .inr (.inl ⟨h.1, h.2, rfl⟩)
    · exact .inr (.inr ⟨by omega, rfl⟩)

/-- Only the base register's value matters to an effective address (R90). -/
theorem State.effAddr_eq (s : State) (imm5 : Int) (rb : RegId) : s.effAddr imm5 rb = s.reg rb + 4 * immWord imm5 := rfl

/-- Only the pc matters to a branch target (R80). -/
theorem State.branchTarget_eq (s : State) (imm11 : Int) : s.branchTarget imm11 = s.pc + immWord imm11 := rfl

end Sys2Proof.Machine
end

