-- ==== Sys2Proof/Laws/Memory.lean ====
section
/-! SUPPORT. Data memory: a byte read after a byte written, the canonical form kept by every operation, and a word read
after a word written in either byte order. -/

namespace Sys2Proof.Machine

/-- A byte read after a byte written: the written byte there, the old cell elsewhere. -/
@[simp] theorem Memory.cell_put (m : Memory) (a : Nat) (v : Byte) (b : Nat) :
    (m.put a v).cell b = if b = a then some v else m.cell b := by
  induction m with
  | nil => simp [Memory.put, Memory.cell, eq_comm]
  | cons c m ih =>
    obtain ⟨k, x⟩ := c
    simp only [Memory.put]
    split
    · simp [Memory.cell, eq_comm]
    · split
      · subst_vars
        by_cases hb : b = k <;> simp [Memory.cell, hb, eq_comm]
      · by_cases hb : k = b
        · subst hb
          simp [Memory.cell]; omega
        · simp [Memory.cell, hb, ih]

/-- What a byte write lists: the new entry or an old one. -/
theorem Memory.mem_put {m : Memory} {a : Nat} {v : Byte} {c : Host.Cell} (h : c ∈ m.put a v) :
    c = (a, v) ∨ c ∈ m := by
  induction m with
  | nil => simpa [Memory.put] using h
  | cons d m ih =>
    obtain ⟨k, x⟩ := d
    simp only [Memory.put] at h
    split at h
    · simpa using h
    · split at h
      · rcases List.mem_cons.1 h with h | h
        · exact .inl h
        · exact .inr (List.mem_cons_of_mem _ h)
      · rcases List.mem_cons.1 h with h | h
        · exact .inr (h ▸ List.mem_cons_self)
        · exact (ih h).imp id (List.mem_cons_of_mem _)

/-- The canonical form of a memory with a first entry. -/
theorem Memory.wf_cons {c : Host.Cell} {m : Memory} :
    Memory.wf (c :: m) ↔ (∀ d ∈ m, c.1 < d.1) ∧ Memory.wf m := by
  simp [Memory.wf]

/-- A byte write keeps the canonical form. -/
theorem Memory.wf_put {m : Memory} (h : m.wf) (a : Nat) (v : Byte) : (m.put a v).wf := by
  induction m with
  | nil => simp [Memory.put, Memory.wf]
  | cons c m ih =>
    obtain ⟨k, x⟩ := c
    have ⟨hk, hm⟩ := Memory.wf_cons.1 h
    simp only [Memory.put]
    split
    · refine Memory.wf_cons.2 ⟨fun d hd => ?_, h⟩
      rcases List.mem_cons.1 hd with rfl | hd
      · assumption
      · exact Nat.lt_trans ‹_› (hk d hd)
    · split
      · subst_vars
        exact Memory.wf_cons.2 ⟨hk, hm⟩
      · refine Memory.wf_cons.2 ⟨fun d hd => ?_, ih hm⟩
        rcases Memory.mem_put hd with rfl | hd
        · show k < a
          omega
        · exact hk d hd

/-- A word write keeps the canonical form. -/
theorem Memory.wf_writeWord {m : Memory} (h : m.wf) (e : Endian) (a : Nat) (v : Word) : (m.writeWord e a v).wf :=
  Memory.wf_put (Memory.wf_put (Memory.wf_put (Memory.wf_put h _ _) _ _) _ _) _ _

/-- What a word write lists: a byte of the word or an old entry. -/
theorem Memory.mem_writeWord {m : Memory} {e : Endian} {a : Nat} {v : Word} {c : Host.Cell}
    (h : c ∈ m.writeWord e a v) : (a ≤ c.1 ∧ c.1 < a + 4) ∨ c ∈ m := by
  rcases Memory.mem_put h with rfl | h
  · left; simp
  rcases Memory.mem_put h with rfl | h
  · left; simp
  rcases Memory.mem_put h with rfl | h
  · left; simp
  rcases Memory.mem_put h with rfl | h
  · left; simp
  exact .inr h

/-- The bytes of a word just written (R42, R44). -/
theorem Memory.cell_writeWord_in (m : Memory) (e : Endian) (a : Nat) (v : Word) {k : Nat} (hk : k < 4) :
    (m.writeWord e a v).cell (a + k) = some (byteOf e v k) := by
  have : k = 0 ∨ k = 1 ∨ k = 2 ∨ k = 3 := by omega
  rcases this with rfl | rfl | rfl | rfl <;> simp [Memory.writeWord]

/-- A word write leaves every byte outside the word alone. -/
theorem Memory.cell_writeWord_out (m : Memory) (e : Endian) (a : Nat) (v : Word) {b : Nat} (hb : b < a ∨ a + 4 ≤ b) :
    (m.writeWord e a v).cell b = m.cell b := by
  have h0 : b ≠ a := by omega
  have h1 : b ≠ a + 1 := by omega
  have h2 : b ≠ a + 2 := by omega
  have h3 : b ≠ a + 3 := by omega
  simp [Memory.writeWord, h0, h1, h2, h3]

/-- Each byte of a word taken apart is the byte it was put together from (R42). -/
theorem byteOf_wordOf (e : Endian) (b0 b1 b2 b3 : Byte) :
    byteOf e (wordOf e b0 b1 b2 b3) 0 = b0 ∧ byteOf e (wordOf e b0 b1 b2 b3) 1 = b1 ∧
      byteOf e (wordOf e b0 b1 b2 b3) 2 = b2 ∧ byteOf e (wordOf e b0 b1 b2 b3) 3 = b3 := by
  cases e <;> refine ⟨?_, ?_, ?_, ?_⟩ <;> apply BitVec.eq_of_getLsbD_eq <;> intro i hi <;>
    simp only [byteOf, wordOf, BitVec.getLsbD_extractLsb', BitVec.getLsbD_append, hi, decide_true, Bool.true_and] <;>
    (repeat' split) <;> first | omega | (congr 1; omega)

/-- A word put together from its bytes is the word (R42). -/
theorem wordOf_byteOf (e : Endian) (w : Word) :
    wordOf e (byteOf e w 0) (byteOf e w 1) (byteOf e w 2) (byteOf e w 3) = w := by
  cases e <;> simp only [wordOf, byteOf] <;> apply BitVec.eq_of_getLsbD_eq <;> intro i hi <;>
    simp only [BitVec.getLsbD_extractLsb', BitVec.getLsbD_append] <;> (repeat' split) <;>
    (rw [decide_eq_true (by omega), Bool.true_and]; congr 1; omega)

/-- A word read after a word written at the same address is the word written (R50). -/
theorem Memory.readWord_writeWord (m : Memory) (e : Endian) (a : Nat) (v : Word) :
    (m.writeWord e a v).readWord e a = v := by
  have h0 := Memory.cell_writeWord_in m e a v (k := 0) (by omega)
  have h1 := Memory.cell_writeWord_in m e a v (k := 1) (by omega)
  have h2 := Memory.cell_writeWord_in m e a v (k := 2) (by omega)
  have h3 := Memory.cell_writeWord_in m e a v (k := 3) (by omega)
  rw [Nat.add_zero] at h0
  simp only [Memory.readWord, Memory.read, h0, h1, h2, h3, Option.getD_some, wordOf_byteOf]

/-- A word read at an address that a word write does not touch is what it was (R50). -/
theorem Memory.readWord_writeWord_ne (m : Memory) (e : Endian) (a b : Nat) (v : Word) (h : b + 4 ≤ a ∨ a + 4 ≤ b) :
    (m.writeWord e a v).readWord e b = m.readWord e b := by
  simp only [Memory.readWord, Memory.read]
  rw [Memory.cell_writeWord_out m e a v (b := b) (by omega), Memory.cell_writeWord_out m e a v (b := b + 1) (by omega),
    Memory.cell_writeWord_out m e a v (b := b + 2) (by omega), Memory.cell_writeWord_out m e a v (b := b + 3) (by omega)]

end Sys2Proof.Machine
end

