-- ==== Sys2Proof/Laws/Ops.lean ====
section
/-! SUPPORT. What each shared operation can answer, said once: the tests of a data access (R43, R44, R123), `MemRead`,
`MemWrite` (R44) and `IFetch` (R47). -/

namespace Sys2Proof.Machine

variable {s s' : State} {ea v : Word} {f : Fault}

/-- A region covers a word when it starts no later and ends no sooner (R44, R46). -/
@[simp] theorem Region.covers_iff (r : Region) (a : Nat) :
    r.covers a = true ↔ r.base ≤ a ∧ a + 4 ≤ r.base + 4 * r.words := by
  simp [Region.covers]

/-- A data access goes through exactly at an aligned address of `DMEM` (R44). -/
theorem State.dataCheck_ok : s.dataCheck ea = .ok () ↔ ea.toNat % 4 = 0 ∧ s.launch.inDmem ea.toNat = true := by
  unfold State.dataCheck
  split
  · simp [*]
  · split <;> simp_all

/-- A data access stops with `DataMisaligned` at a misaligned address, else with `DataOutOfRange` outside `DMEM` (R43,
R44, R123). -/
theorem State.dataCheck_error : s.dataCheck ea = .error f ↔
    (ea.toNat % 4 ≠ 0 ∧ f = .dataMisaligned ea) ∨
      (ea.toNat % 4 = 0 ∧ s.launch.inDmem ea.toNat = false ∧ f = .dataOutOfRange ea) := by
  unfold State.dataCheck
  split
  · rename_i h
    simp only [Except.error.injEq, eq_comm (b := f)]
    simp [h]
  · rename_i h
    have h : ea.toNat % 4 = 0 := by omega
    split <;> rename_i hd
    · simp [h, hd]
    · simp only [Except.error.injEq, eq_comm (b := f)]
      simp [h, hd]

/-- `MemRead` gives the word at an aligned address of `DMEM` (R44). -/
theorem State.memRead_ok : s.memRead ea = .ok v ↔
    (ea.toNat % 4 = 0 ∧ s.launch.inDmem ea.toNat = true) ∧ s.mem.readWord s.launch.endian ea.toNat = v := by
  rw [← State.dataCheck_ok]
  unfold State.memRead
  split <;> simp_all

/-- `MemRead` stops exactly where the access does (R44). -/
theorem State.memRead_error : s.memRead ea = .error f ↔ s.dataCheck ea = .error f := by
  unfold State.memRead
  split <;> simp_all

/-- `MemWrite` writes the word at an aligned address of `DMEM` and changes nothing else (R44). -/
theorem State.memWrite_ok : s.memWrite ea v = .ok s' ↔
    (ea.toNat % 4 = 0 ∧ s.launch.inDmem ea.toNat = true) ∧
      { s with mem := s.mem.writeWord s.launch.endian ea.toNat v } = s' := by
  rw [← State.dataCheck_ok]
  unfold State.memWrite
  split <;> simp_all

/-- `MemWrite` stops exactly where the access does (R44). -/
theorem State.memWrite_error : s.memWrite ea v = .error f ↔ s.dataCheck ea = .error f := by
  unfold State.memWrite
  split <;> simp_all

/-- `IFetch` gives the word of a slot inside the program (R47). -/
theorem State.fetch_ok {w : IWord} : s.fetch = .ok w ↔
    s.fetchOffset % 4 = 0 ∧ s.launch.prog[s.fetchOffset / 4]? = some w := by
  unfold State.fetch
  split
  · rename_i h
    simp [h]
  · split
    · simp [*]
    · split <;> simp_all

/-- `IFetch` stops in three ways: at the program's end, off a slot, or outside the program (R47, R143). -/
theorem State.fetch_error : s.fetch = .error f ↔
    (s.fetchOffset = 4 * s.launch.prog.length ∧ f = .halted (s.reg 15)) ∨
      (s.fetchOffset % 4 ≠ 0 ∧ f = .fetchMisaligned s.pc) ∨
      (s.fetchOffset % 4 = 0 ∧ 4 * s.launch.prog.length < s.fetchOffset ∧ f = .fetchOutsideProgram s.pc) := by
  have comm : ∀ g : Fault, ((.error g : Except Fault IWord) = .error f) ↔ f = g := fun g => by
    rw [Except.error.injEq, eq_comm]
  unfold State.fetch
  split
  · rename_i h
    rw [comm]
    simp [h]
  · rename_i hend
    split
    · rename_i h
      rw [comm]
      simp [h, hend]
    · rename_i h
      have h : s.fetchOffset % 4 = 0 := by omega
      split
      · rename_i hw
        have := (List.getElem?_eq_some_iff.1 hw).1
        have hn : ¬ 4 * s.launch.prog.length < s.fetchOffset := by omega
        simp [h, hend, hn]
      · rename_i hw
        have := List.getElem?_eq_none_iff.1 hw
        have hn : 4 * s.launch.prog.length < s.fetchOffset := by omega
        rw [comm]
        simp [h, hend, hn]

end Sys2Proof.Machine
end

