-- ==== Sys2Proof/Laws/Exec.lean ====
section
/-! SUPPORT. What one instruction and one step can do, said once: every later fact about `exec` or `step` is read off
these. -/

namespace Sys2Proof.Machine

variable {s t : State} {f : Fault}

/-- BNE tests against 0 (R80). -/
@[simp] theorem isNonZero_iff (v : Word) : isNonZero v = true ↔ v ≠ 0 := by simp [isNonZero]

/-- Everything BNE does (R80). -/
theorem execBne_eq (imm11 : Int) (rs : RegId) (s : State) :
    execBne imm11 rs s = .next (s.setPc (if s.reg rs = 0 then s.pc + 4 else s.pc + immWord imm11)) := by
  unfold execBne
  split <;> rename_i h <;> simp only [isNonZero_iff, ne_eq, not_not] at h <;>
    simp only [h, if_true, if_false] <;> rfl

/-- Everything LOAD does when it has a next state (R91). -/
theorem execLoad_next {imm5 : Int} {rb rt : RegId} : execLoad imm5 rb rt s = .next t ↔
    ((s.effAddr imm5 rb).toNat % 4 = 0 ∧ s.launch.inDmem (s.effAddr imm5 rb).toNat = true) ∧
      (s.setReg rt (s.mem.readWord s.launch.endian (s.effAddr imm5 rb).toNat)).nextPc = t := by
  unfold execLoad
  split
  · rename_i v h
    obtain ⟨ha, rfl⟩ := State.memRead_ok.1 h
    rw [and_iff_right ha, Host.Outcome.next.injEq]
  · rename_i g h
    have h := State.memRead_error.1 h
    have h' : ¬ s.dataCheck (s.effAddr imm5 rb) = .ok () := by simp [h]
    rw [State.dataCheck_ok] at h'
    simp [raise, h']

/-- Everything STORE does when it has a next state (R92). -/
theorem execStore_next {imm5 : Int} {rb rt : RegId} : execStore imm5 rb rt s = .next t ↔
    ((s.effAddr imm5 rb).toNat % 4 = 0 ∧ s.launch.inDmem (s.effAddr imm5 rb).toNat = true) ∧
      State.nextPc { s with mem := s.mem.writeWord s.launch.endian (s.effAddr imm5 rb).toNat (s.reg rt) } = t := by
  unfold execStore
  split
  · rename_i v h
    obtain ⟨ha, rfl⟩ := State.memWrite_ok.1 h
    rw [and_iff_right ha, Host.Outcome.next.injEq]
  · rename_i g h
    have h := State.memWrite_error.1 h
    have h' : ¬ s.dataCheck (s.effAddr imm5 rb) = .ok () := by simp [h]
    rw [State.dataCheck_ok] at h'
    simp [raise, h']

/-- LOAD stops exactly where its access does (R91). -/
theorem execLoad_fault {imm5 : Int} {rb rt : RegId} :
    execLoad imm5 rb rt s = .fault f ↔ s.dataCheck (s.effAddr imm5 rb) = .error f := by
  rw [← State.memRead_error]
  unfold execLoad
  split <;> simp_all [raise]

/-- STORE stops exactly where its access does (R92). -/
theorem execStore_fault {imm5 : Int} {rb rt : RegId} :
    execStore imm5 rb rt s = .fault f ↔ s.dataCheck (s.effAddr imm5 rb) = .error f := by
  rw [← State.memWrite_error (v := s.reg rt)]
  unfold execStore
  split <;> simp_all [raise]

/-- Everything one instruction can do when it has a next state: a branch, a register written, or a word stored. -/
theorem exec_next_cases {i : Instr} (h : exec i s = .next t) :
    (∃ imm11 rs, i = .bne imm11 rs ∧ t = s.setPc (if s.reg rs = 0 then s.pc + 4 else s.pc + immWord imm11)) ∨
      (∃ rd v, i.writes = some rd ∧ t = (s.setReg rd v).nextPc) ∨
      (∃ imm5 rb rt, i = .store imm5 rb rt ∧
        ((s.effAddr imm5 rb).toNat % 4 = 0 ∧ s.launch.inDmem (s.effAddr imm5 rb).toNat = true) ∧
        t = State.nextPc { s with mem := s.mem.writeWord s.launch.endian (s.effAddr imm5 rb).toNat (s.reg rt) }) := by
  cases i with
  | bne imm11 rs =>
    have h : execBne imm11 rs s = .next t := h
    rw [execBne_eq] at h
    exact .inl ⟨imm11, rs, rfl, (Host.Outcome.next.inj h).symm⟩
  | load imm5 rb rt => exact .inr (.inl ⟨rt, _, rfl, (execLoad_next.1 h).2.symm⟩)
  | store imm5 rb rt =>
    have h := execStore_next.1 h
    exact .inr (.inr ⟨imm5, rb, rt, rfl, h.1, h.2.symm⟩)
  | add rd rs2 rs1 => exact .inr (.inl ⟨rd, _, rfl, (Host.Outcome.next.inj h).symm⟩)
  | sll rd rs2 rs1 => exact .inr (.inl ⟨rd, _, rfl, (Host.Outcome.next.inj h).symm⟩)
  | xor rd rs2 rs1 => exact .inr (.inl ⟨rd, _, rfl, (Host.Outcome.next.inj h).symm⟩)
  | cpy rd imm8 => exact .inr (.inl ⟨rd, _, rfl, (Host.Outcome.next.inj h).symm⟩)

/-- A step with a next state executed the decoded word at the pc (R47, R149). -/
theorem step_next : step s = .next t ↔ ∃ w, s.fetch = .ok w ∧ exec (decode w) s = .next t := by
  unfold step
  split <;> simp_all [raise]

/-- A step stops where its fetch stops or where the decoded instruction stops (R121). -/
theorem step_fault : step s = .fault f ↔
    s.fetch = .error f ∨ ∃ w, s.fetch = .ok w ∧ exec (decode w) s = .fault f := by
  unfold step
  split <;> simp_all [raise]

end Sys2Proof.Machine
end

