-- ==== Sys2Proof/Laws/PerInstr.lean ====
section
/-! SUPPORT. The per-instruction family `EncodeRow`: the word of every instruction, well formed or not, selects its own
row of the opcode map (R70). -/

namespace Sys2Proof.Laws.EncodeRow

/-- The word of the instruction has its row's `match` under its row's `mask` (R70). -/
def Statement (i : Instr) : Prop := i.mnemonic.selects (encode i) = true

/-- A word selects a row when it agrees with the row's `match` on each bit of the row's `mask`. -/
theorem selects_of_bits {m : Mnemonic} {w : IWord}
    (h : ∀ k, k < 16 → (w.getLsbD k && m.mask.getLsbD k) = m.pattern.getLsbD k) : m.selects w = true := by
  simp only [Mnemonic.selects, beq_iff_eq]
  apply BitVec.eq_of_getLsbD_eq
  intro k hk
  rw [BitVec.getLsbD_and]
  exact h k hk

theorem bne (imm11 : Int) (rs : RegId) : Statement (.bne imm11 rs) := by
  refine selects_of_bits fun k hk => ?_
  simp only [Instr.mnemonic, Mnemonic.mask, Mnemonic.pattern, encode, BitVec.getLsbD_or, regBits_getLsbD _ _ hk,
    immBits_getLsbD _ _ _ hk]
  interval_cases k <;> simp [RegId.testBit_high]

theorem load (imm5 : Int) (rb rt : RegId) : Statement (.load imm5 rb rt) := by
  refine selects_of_bits fun k hk => ?_
  simp only [Instr.mnemonic, Mnemonic.mask, Mnemonic.pattern, encode, BitVec.getLsbD_or, regBits_getLsbD _ _ hk,
    immBits_getLsbD _ _ _ hk]
  interval_cases k <;> simp [RegId.testBit_high]

theorem store (imm5 : Int) (rb rt : RegId) : Statement (.store imm5 rb rt) := by
  refine selects_of_bits fun k hk => ?_
  simp only [Instr.mnemonic, Mnemonic.mask, Mnemonic.pattern, encode, BitVec.getLsbD_or, regBits_getLsbD _ _ hk,
    immBits_getLsbD _ _ _ hk]
  interval_cases k <;> simp [RegId.testBit_high]

theorem add (rd rs2 rs1 : RegId) : Statement (.add rd rs2 rs1) := by
  refine selects_of_bits fun k hk => ?_
  simp only [Instr.mnemonic, Mnemonic.mask, Mnemonic.pattern, encode, BitVec.getLsbD_or, regBits_getLsbD _ _ hk]
  interval_cases k <;> simp [RegId.testBit_high]

theorem sll (rd rs2 rs1 : RegId) : Statement (.sll rd rs2 rs1) := by
  refine selects_of_bits fun k hk => ?_
  simp only [Instr.mnemonic, Mnemonic.mask, Mnemonic.pattern, encode, BitVec.getLsbD_or, regBits_getLsbD _ _ hk]
  interval_cases k <;> simp [RegId.testBit_high]

theorem xor (rd rs2 rs1 : RegId) : Statement (.xor rd rs2 rs1) := by
  refine selects_of_bits fun k hk => ?_
  simp only [Instr.mnemonic, Mnemonic.mask, Mnemonic.pattern, encode, BitVec.getLsbD_or, regBits_getLsbD _ _ hk]
  interval_cases k <;> simp [RegId.testBit_high]

theorem cpy (rd : RegId) (imm8 : Int) : Statement (.cpy rd imm8) := by
  refine selects_of_bits fun k hk => ?_
  simp only [Instr.mnemonic, Mnemonic.mask, Mnemonic.pattern, encode, BitVec.getLsbD_or, regBits_getLsbD _ _ hk,
    immBits_getLsbD _ _ _ hk]
  interval_cases k <;> simp [RegId.testBit_high]

end Sys2Proof.Laws.EncodeRow
end

