-- ==== Sys2Proof/Tests/Slice0.lean ====
section
/-! SUPPORT. Tests of the model against the spec's own examples and vectors (95_test_vectors.md: S1 to S9, V1 to V8; the
comment of a test names its row), the smoke test of well-formedness, and for every statement with hypotheses a named
witness that meets them. -/

namespace Sys2Proof.Tests

open Sys2Proof.Machine

/-! ### A small state, and what to look at after a step -/

/-- The state after the host loaded `prog` at base 0 with the given pc, registers (0 elsewhere) and data bytes. -/
def machine (prog : List IWord) (pc : Word) (regs : List (RegId × Word)) (mem : Memory) : State :=
  regs.foldl (fun s p => s.setReg p.1 p.2)
    { State.start { Launch.reset with prog := prog } mem (Vector.replicate 16 0) with pc := pc }

/-- The same with only the ten words of the source's array, 0x20 to 0x44, in `DMEM`. -/
def smallDmem (s : State) : State := { s with launch := { s.launch with dmem := [⟨0x20, 10⟩] } }

/-- The same in big endian. -/
def bigEndian (s : State) : State := { s with launch := { s.launch with endian := .big } }

def nextOf : Result → Option State
  | .next t => some t
  | _ => none

def faultOf : Result → Option Fault
  | .fault f => some f
  | _ => none

def regAfter (r : RegId) (o : Result) : Option Word := (nextOf o).map fun t => t.reg r

def pcAfter (o : Result) : Option Word := (nextOf o).map fun t => t.pc

def cellAfter (a : Nat) (o : Result) : Option Byte := (nextOf o).bind fun t => t.mem.cell a

/-! ### Decoding: words written out from the spec's encodings -/

/-- S1: type 1, `1 | 00000000100 | 0101`. -/
theorem test_decode_bne : decode 0b1000000001000101#16 = .bne 4 5 := by decide

/-- P2, address 44: `1 | 11111101100 | 1110`, `Bne $14, -20`. -/
theorem test_decode_bne_back : decode 0b1111111011001110#16 = .bne (-20) 14 := by decide

/-- S2: type 2 load, `000 | 00100 | 0100 | 0101`. -/
theorem test_decode_load : decode 0b0000010001000101#16 = .load 4 4 5 := by decide

/-- V1: `Load $1, $3, -2`, `000 | 11110 | 0001 | 0011`. -/
theorem test_decode_load_back : decode 0b0001111000010011#16 = .load (-2) 1 3 := by decide

/-- S3: type 2 store, `001 | 01000 | 1100 | 0101`. -/
theorem test_decode_store : decode 0b0010100011000101#16 = .store 8 12 5 := by decide

/-- S4: type 3, `01 | 00 | 0011 | 0010 | 0001`. -/
theorem test_decode_add : decode 0b0100001100100001#16 = .add 3 2 1 := by decide

/-- S5: type 3, `01 | 01 | 0011 | 0010 | 0001`. -/
theorem test_decode_sll : decode 0b0101001100100001#16 = .sll 3 2 1 := by decide

/-- V1: `0110 | 1010 | 1011 | 1100`, `XOR $12, $11, $10`. -/
theorem test_decode_xor : decode 0b0110101010111100#16 = .xor 10 11 12 := by decide

/-- S6: type 4, `0111 | 0010 | 10001011`. -/
theorem test_decode_cpy : decode 0b0111001010001011#16 = .cpy 2 (-117) := by decide

/-- V1: the ends of the immediates' ranges, and the words of all zeros and all ones. -/
theorem test_decode_edges :
    decode 0xC001#16 = .bne (-1024) 1 ∧ decode 0xBFF1#16 = .bne 1023 1 ∧ decode 0xFFFF#16 = .bne (-1) 15 ∧
      decode 0x0000#16 = .load 0 0 0 ∧ decode 0x0F00#16 = .load 15 0 0 ∧ decode 0x1000#16 = .load (-16) 0 0 ∧
      decode 0x3FFF#16 = .store (-1) 15 15 ∧ decode 0x7F80#16 = .cpy 15 (-128) ∧ decode 0x7FFF#16 = .cpy 15 (-1) := by
  decide

/-- R79: encoding gives the source's words back. -/
theorem test_encode_source_words :
    encode (.bne 4 5) = 0x8045#16 ∧ encode (.load 4 4 5) = 0x0445#16 ∧ encode (.store 8 12 5) = 0x28C5#16 ∧
      encode (.add 3 2 1) = 0x4321#16 ∧ encode (.sll 3 2 1) = 0x5321#16 ∧ encode (.xor 14 3 2) = 0x6E32#16 ∧
      encode (.cpy 2 (-117)) = 0x728B#16 := by
  decide

/-- R60: a number wider than 16 bits is no instruction, and is rejected by name. -/
theorem test_decode_rejects_wide : decodeNat 0x10000 = .error .notSixteenBits ∧ decodeTableWord 16 0x10000 = none := by
  constructor <;> rfl

/-- The host's entry to the decoder gives a table row's instruction. -/
theorem test_decode_table_word : decodeTableWord 16 0x7000 = some (.cpy 0 0) := by decide

/-! ### Well-formedness: each check refuses a term just outside its range -/

theorem test_ill_formed_bne : ¬ (Instr.bne 1024 3).WellFormed ∧ ¬ (Instr.bne (-1025) 3).WellFormed := by decide
theorem test_ill_formed_load : ¬ (Instr.load 16 1 2).WellFormed ∧ ¬ (Instr.load (-17) 1 2).WellFormed := by decide
theorem test_ill_formed_store : ¬ (Instr.store 16 1 2).WellFormed ∧ ¬ (Instr.store (-17) 1 2).WellFormed := by decide
theorem test_ill_formed_cpy : ¬ (Instr.cpy 1 128).WellFormed ∧ ¬ (Instr.cpy 1 (-129)).WellFormed := by decide

/-! ### One step of each instruction -/

/-- V2: `Bne $1, -20` at 100 with a register that has only its top bit set goes to 80. -/
theorem test_bne_taken : pcAfter (exec (.bne (-20) 1) (machine [] 100 [(1, 0x80000000)] [])) = some 80 := by decide

/-- V2: `Bne $1, -4` at 0 wraps to 0xFFFFFFFC. -/
theorem test_bne_wraps : pcAfter (exec (.bne (-4) 1) (machine [] 0 [(1, 1)] [])) = some 0xFFFFFFFC := by decide

/-- V3: `Load $2, $2, +0`, the base register as destination, little endian. -/
theorem test_load_into_its_base :
    regAfter 2 (exec (.load 0 2 2)
      (machine [] 0 [(2, 0x20)] [(0x20, 0x01), (0x21, 0x00), (0x22, 0xFE), (0x23, 0xCA)])) = some 0xCAFE0001 := by
  decide

/-- V3: `Load $0, $1, +0` from 0x22 stops with `DataMisaligned(0x22)`. -/
theorem test_load_misaligned :
    faultOf (exec (.load 0 0 1) (machine [] 0 [(0, 0x22)] [])) = some (.dataMisaligned 0x22) := by decide

/-- P3: `Store $1, $2, -2` with the base 0x40 writes the word at 0x38; here 0x12345678, its low byte first (R42). -/
theorem test_store_little_endian :
    cellAfter 0x38 (exec (.store (-2) 1 2) (machine [] 0 [(1, 0x40), (2, 0x12345678)] [])) = some 0x78 := by decide

/-- The end of P2: with 0x48 not in `DMEM`, a STORE there stops with `DataOutOfRange(0x48)`. -/
theorem test_store_out_of_range :
    faultOf (exec (.store 0 1 2) (smallDmem (machine [] 0 [(1, 0x48)] []))) = some (.dataOutOfRange 0x48) := by decide

/-- The edges of `DMEM` (R44, R46): of the source's array, 0x20 and 0x44 are in, 0x1C, 0x22 and 0x48 are not; of the
largest machine, 0xFFFFFFFC is in and 2^32 is not. -/
theorem test_dmem_edges :
    [0x1C, 0x20, 0x22, 0x44, 0x48].map (smallDmem State.reset).launch.inDmem = [false, true, false, true, false] ∧
      [0, 0xFFFFFFFC, 0x100000000].map State.reset.launch.inDmem = [true, true, false] := by decide

/-- V4: `Add $1, $2, $3`, 0x7FFFFFFF + 1 wraps. -/
theorem test_add_wraps :
    regAfter 3 (exec (.add 3 2 1) (machine [] 0 [(1, 0x7FFFFFFF), (2, 1)] [])) = some 0x80000000 := by decide

/-- V4: `Add $1, $1, $1`, one register in all three fields. -/
theorem test_add_to_itself : regAfter 1 (exec (.add 1 1 1) (machine [] 0 [(1, 0x15)] [])) = some 0x2A := by decide

/-- V5: -7 shifted by -1 is -4: a right shift that rounds down and keeps the sign. -/
theorem test_sll_right_rounds_down :
    regAfter 3 (exec (.sll 3 2 1) (machine [] 0 [(1, 0xFFFFFFF9), (2, 0xFFFFFFFF)] [])) = some 0xFFFFFFFC := by decide

/-- V5: an amount of 32 completes with the free value of the two operands. -/
theorem test_sll_out_of_range :
    regAfter 3 (exec (.sll 3 2 1) (machine [] 0 [(1, 5), (2, 0x20)] [])) = some (Config.shiftOor 5 0x20) := by rfl

/-- V5: the zero-fill column, where `SHIFT_RIGHT_ARITH` is false. -/
theorem test_shift_right_zero_fill : shiftRight false 0x80000000 31 = 1 ∧ shiftRight true 0x80000000 31 = 0xFFFFFFFF := by
  decide

/-- V6: `XOR $1, $2, $3` with 0x12345678 and -1. -/
theorem test_xor_complements :
    regAfter 3 (exec (.xor 3 2 1) (machine [] 0 [(1, 0x12345678), (2, 0xFFFFFFFF)] [])) = some 0xEDCBA987 := by decide

/-- V6: `XOR $4, $4, $4` gives 0. -/
theorem test_xor_itself : regAfter 4 (exec (.xor 4 4 4) (machine [] 0 [(4, 0xDEADBEEF)] [])) = some 0 := by decide

/-- V7: `Cpy $2, -117`. -/
theorem test_cpy_sign_extends : regAfter 2 (exec (.cpy 2 (-117)) (machine [] 0 [(2, 77)] [])) = some 0xFFFFFF8B := by decide

/-- R23: `$0` is an ordinary register; V7's -128 into it. -/
theorem test_cpy_register_zero : regAfter 0 (exec (.cpy 0 (-128)) (machine [] 0 [] [])) = some 0xFFFFFF80 := by decide

/-! ### The step: V8's program `[0x7105, X]` -/

/-- V8: after the last instruction the run is over, and the result is in `x[15]`. -/
theorem test_step_halts : faultOf (step (machine [0x7105, 0x7F07] 8 [(15, 7)] [])) = some (.halted 7) := by decide

/-- V8: `Bne $1, +8` leads past the end, `Bne $1, +2` off the slots. -/
theorem test_step_fetch_faults :
    faultOf (step (machine [0x7105, 0x8081] 12 [] [])) = some (.fetchOutsideProgram 12) ∧
      faultOf (step (machine [0x7105, 0x8081] 0xFFFFFFFC [] [])) = some (.fetchOutsideProgram 0xFFFFFFFC) ∧
      faultOf (step (machine [0x7105, 0x8021] 6 [] [])) = some (.fetchMisaligned 6) := by
  decide

/-- V8: the first word, `Cpy $1, +5`, runs. -/
theorem test_step_runs : regAfter 1 (step (machine [0x7105, 0x7F07] 0 [] [])) = some 5 := by decide

/-- A placed word is the first instruction after reset. -/
theorem test_placed_word_runs : regAfter 2 (step (State.reset.withFetchWord 16 0x728B)) = some 0xFFFFFF8B := by decide

/-- R121: the codes of the four model-level faults; the normal end of a run is none of them. -/
theorem test_fault_codes :
    [Fault.fetchMisaligned 0, .fetchOutsideProgram 0, .dataMisaligned 0, .dataOutOfRange 0, .halted 0].map Fault.code =
      [some 1, some 2, some 3, some 4, none] := by
  decide

/-! ### Witnesses: the hypotheses of each statement can be met -/

theorem test_hyp_EncodeThenDecodeIsIdentity :
    [Instr.bne (-1024) 0, .bne 1023 15, .load (-16) 0 15, .load 15 15 0, .store (-16) 0 15, .store 15 15 0, .add 0 15 0,
      .sll 15 0 15, .xor 0 0 15, .cpy 0 (-128), .cpy 15 127].all Instr.wellFormed = true := by decide

theorem test_hyp_EveryWordIsExactlyOneInstruction :
    (Instr.bne (-1024) 1).WellFormed ∧ encode (.bne (-1024) 1) = 0xC001#16 := by decide

/-- One word for each of the seven clauses, at the end of its row's range. -/
theorem test_hyp_LeadingDigitsSelectTheInstruction :
    [0x8000#16, 0x1FFF#16, 0x3FFF#16, 0x4FFF#16, 0x5FFF#16, 0x6FFF#16, 0x7FFF#16].map
        (fun w => [0, 1, 2, 3].map fun k => w.toNat / 2 ^ (15 - k) % 2) =
      [[1, 0, 0, 0], [0, 0, 0, 1], [0, 0, 1, 1], [0, 1, 0, 0], [0, 1, 0, 1], [0, 1, 1, 0], [0, 1, 1, 1]] := by decide

theorem test_hyp_StepRunsTheFetchedInstruction :
    let s := machine [0x7105, 0x7F07] 4 [] []
    1 < 2 ^ 30 ∧ s.pc = s.launch.progBase + BitVec.ofNat 32 (4 * 1) ∧ s.launch.prog[1]? = some 0x7F07 ∧
      decode 0x7F07 = .cpy 15 7 := by decide

theorem test_hyp_PlacedInstructionIsTheOneThatRuns : (Instr.store (-16) 15 0).WellFormed := by decide

theorem test_hyp_RunStartsAtProgBase :
    ({ Launch.reset with progBase := 64, prog := [0x7105] } : Launch).prog = (0x7105 : IWord) :: [] := by decide

theorem test_hyp_RunEndsExactlyAfterTheLastInstruction :
    let s := machine [0x7105, 0x7F07] 8 [(15, 7)] []
    s.launch.prog.length < 2 ^ 30 ∧ s.pc = s.launch.progBase + BitVec.ofNat 32 (4 * s.launch.prog.length) ∧
      s.reg 15 = 7 := by decide

theorem test_hyp_PcLeavesSlotsOnlyByTakenBranch :
    let s := machine [0x8021] 0 [(1, 1)] []
    (s.pc - s.launch.progBase).toNat % 4 = 0 ∧
      ∃ t, step s = .next t ∧ (t.pc - t.launch.progBase).toNat % 4 ≠ 0 := ⟨by decide, _, rfl, by decide⟩

/-- A STORE runs, from a state that meets the invariant with a byte listed. -/
theorem test_hyp_StepKeepsMemoryCanonicalAndInDmem :
    let s := machine [0x2001] 0 [(0, 0x20)] [(0x40, 7)]
    s.Inv ∧ ∃ t, step s = .next t :=
  ⟨⟨by decide, fun c hc => by rw [List.mem_singleton.1 hc]; decide⟩, _, rfl⟩

theorem test_hyp_NoStepChangesTheProgram : ∃ t, step (machine [0x2001] 0 [] []) = .next t := ⟨_, rfl⟩

/-- Two states under the two byte orders, the low byte of the word at 0x20 written. -/
theorem test_hyp_ByteOrderIsNotObservable :
    State.EndianTwin (machine [0x0001] 0 [] [(0x20, 1)]) (bigEndian (machine [0x0001] 0 [] [(0x23, 1)])) := by
  refine ⟨rfl, rfl, rfl, fun a => ?_⟩
  have h : 0x23 = mirrorByte a ↔ 0x20 = a := by unfold mirrorByte; omega
  show (if 0x23 = mirrorByte a then some (1 : Byte) else none) = if 0x20 = a then some 1 else none
  simp only [h]

/-- `Cpy $1, +5` writes `$1` and not `$2`; two states that differ in `$1` alone agree on all it reads. -/
theorem test_hyp_RegistersReadAndWrittenByTheTable :
    (∃ t, exec (.cpy 1 5) (machine [] 0 [] []) = .next t) ∧ (Instr.cpy 1 5).writes ≠ some 2 ∧
      (machine [] 0 [] []).pc = (machine [] 0 [(1, 9)] []).pc ∧ (machine [] 0 [] []).mem = (machine [] 0 [(1, 9)] []).mem ∧
      (machine [] 0 [] []).launch = (machine [] 0 [(1, 9)] []).launch ∧
      ∀ r ∈ (Instr.xor 3 2 4).reads, (machine [] 0 [] []).reg r = (machine [] 0 [(1, 9)] []).reg r :=
  ⟨⟨_, rfl⟩, by decide, rfl, rfl, rfl, by decide⟩

theorem test_hyp_SuccessorsAreNextOrBranchTarget : ∃ t, exec (.bne (-20) 1) (machine [] 100 [(1, 1)] []) = .next t :=
  ⟨_, rfl⟩

theorem test_hyp_OnlyLoadAndStoreTouchMemory :
    ((Instr.add 1 2 3).mnemonic ≠ .LOAD ∧ (Instr.add 1 2 3).mnemonic ≠ .STORE) ∧
      (Instr.load 0 1 2).mnemonic = .LOAD ∧ ∃ t, exec (.load 0 1 2) (machine [] 0 [] []) = .next t :=
  ⟨by decide, rfl, _, rfl⟩

/-- A register that is not zero (its top bit alone) and one that is. -/
theorem test_hyp_BneBranchesOnNonZero :
    ((machine [] 0 [(1, 0x80000000)] []).reg 1).toNat ≠ 0 ∧ ((machine [] 0 [(1, 0x80000000)] []).reg 2).toNat = 0 := by
  decide

theorem test_hyp_BneToItselfHangsAndByFourDoesNothing : (machine [] 0 [(1, 7)] []).reg 1 ≠ 0 := by decide

/-- Two equal registers, and two that differ in the top bit alone. -/
theorem test_hyp_XorThenBneComparesTwoRegisters :
    let s := machine [] 0 [(1, 9), (2, 9), (3, 0x80000009)] []
    s.reg 1 = s.reg 2 ∧ s.reg 1 ≠ s.reg 3 := by decide

/-- The last word of the address space, in both byte orders, its bytes written and not written. -/
theorem test_hyp_LoadReadsTheWord :
    let s := machine [] 0 [] [(0xFFFFFFFF, 7)]
    (s.effAddr (-1) 0).toNat % 4 = 0 ∧ s.launch.inDmem (s.effAddr (-1) 0).toNat = true ∧
      s.mem.cell ((s.effAddr (-1) 0).toNat + 3) = some 7 ∧ s.mem.cell ((s.effAddr (-1) 0).toNat + 0) = none ∧
      s.launch.endian = .little ∧ (bigEndian s).launch.endian ≠ .little := by decide

/-- The first and the last word of the source's array, the only words of `DMEM`. -/
theorem test_hyp_StoreWritesTheWord :
    let s := smallDmem (machine [] 0 [(1, 0x20), (2, 0x44)] [])
    (s.effAddr 0 1).toNat % 4 = 0 ∧ s.launch.inDmem (s.effAddr 0 1).toNat = true ∧
      (s.effAddr 0 2).toNat % 4 = 0 ∧ s.launch.inDmem (s.effAddr 0 2).toNat = true := by decide

/-- A STORE to 0x44; a LOAD from it by the same operands, and one from the word below it. -/
theorem test_hyp_LoadSeesTheLatestStore :
    let s := machine [] 0 [(1, 0x40), (2, 0x80000001)] []
    ∃ t, exec (.store 1 1 2) s = .next t ∧ t.effAddr 1 1 = s.effAddr 1 1 ∧ t.effAddr 0 1 ≠ s.effAddr 1 1 ∧
      ∃ v, exec (.load 0 1 3) s = .next v := ⟨_, rfl, by decide, by decide, _, rfl⟩

/-- Registers holding amounts at the ends of the three ranges: 0 and 31, -1 and -31, 32, -32 and the least number. -/
theorem test_hyp_SllShiftsByTheSignedAmount :
    let s := machine [] 0 [(1, 31), (2, 0xFFFFFFFF), (3, 0xFFFFFFE1), (4, 32), (5, 0xFFFFFFE0), (6, 0x80000000)] []
    [0, 1, 2, 3, 4, 5, 6].map (fun r => (s.reg r).toInt) = [0, 31, -1, -31, 32, -32, -2147483648] := by decide

/-- Registers holding the operands of each of the six values. -/
theorem test_hyp_SourceArithmeticValues :
    let s := machine [] 0 [(1, 10), (2, 0xFFFFFFFC), (3, 16256), (4, 127), (5, 65532), (6, 3), (7, 7), (8, 16383), (9, 2),
      (10, 0xFFFFFFFE)] []
    ((s.reg 1).toInt = 10 ∧ (s.reg 2).toInt = -4) ∧ ((s.reg 3).toInt = 16256 ∧ (s.reg 4).toInt = 127) ∧
      ((s.reg 5).toInt = 65532 ∧ (s.reg 6).toInt = 3) ∧ ((s.reg 4).toInt = 127 ∧ (s.reg 7).toInt = 7) ∧
      ((s.reg 8).toInt = 16383 ∧ (s.reg 9).toInt = 2) ∧ ((s.reg 1).toInt = 10 ∧ (s.reg 10).toInt = -2) := by decide

/-- The ends of the constant's range. -/
theorem test_hyp_CpyWritesTheSignedConstant :
    ((-128 : Int) ≤ -128 ∧ (-128 : Int) ≤ 127) ∧ ((-128 : Int) ≤ 127 ∧ (127 : Int) ≤ 127) := by decide

/-- `$0` as the register, `$1` as the other operand, at the ends of the constant's range. -/
theorem test_hyp_EveryRegisterReadsBackWhatWasWritten :
    ((-128 : Int) ≤ -128 ∧ (-128 : Int) ≤ 127 ∧ (-128 : Int) ≤ 127 ∧ (127 : Int) ≤ 127) ∧ (1 : RegId) ≠ 0 := by decide

/-- Two states that differ in `$2` alone and get different sums: operand 2 of `Add $1, $2, $3` bears on the result, and
the instruction is neither BNE +4 nor XOR of a register with itself. -/
theorem test_hyp_EachListedOperandBearsOnTheResult :
    (Instr.add 3 2 1).WellFormed ∧ (2 : RegId) ∈ (Instr.add 3 2 1).reads ∧
      (∀ q, q ≠ 2 → (machine [] 0 [(2, 5)] []).reg q = (machine [] 0 [(2, 6)] []).reg q) ∧
      regAfter 3 (exec (.add 3 2 1) (machine [] 0 [(2, 5)] [])) = some 5 ∧
      regAfter 3 (exec (.add 3 2 1) (machine [] 0 [(2, 6)] [])) = some 6 := by decide

/-- The two forms in which a listed register does not count are well formed, and their neighbours are neither form. -/
theorem test_hyp_EachListedOperandBearsOnTheResult_edges :
    (Instr.bne 4 1).WellFormed ∧ (Instr.bne 3 1).WellFormed ∧ Instr.bne 3 1 ≠ .bne 4 1 ∧
      (Instr.xor 3 1 1).WellFormed ∧ Instr.xor 1 2 1 ≠ .xor 1 1 1 := by decide

end Sys2Proof.Tests
end

