-- ==== Sys2Proof/Proofs/StateLaws.lean ====
section
/-! SUPPORT. One equation per instruction for `exec`, where an instruction stops, and what of the state a data access
and an effective address look at. -/

namespace Sys2Proof.Machine

variable {s s₁ s₂ t : State} {f : Fault}

/-! ### One equation per instruction -/

@[simp] theorem exec_bne (imm11 : Int) (rs : RegId) (s : State) :
    exec (.bne imm11 rs) s = .next (s.setPc (if s.reg rs = 0 then s.pc + 4 else s.pc + immWord imm11)) :=
  execBne_eq imm11 rs s

@[simp] theorem exec_add (rd rs2 rs1 : RegId) (s : State) :
    exec (.add rd rs2 rs1) s = .next (s.setReg rd (s.reg rs1 + s.reg rs2)).nextPc := rfl

@[simp] theorem exec_sll (rd rs2 rs1 : RegId) (s : State) :
    exec (.sll rd rs2 rs1) s = .next (s.setReg rd (shiftLeftSigned (s.reg rs1) (s.reg rs2))).nextPc := rfl

@[simp] theorem exec_xor (rd rs2 rs1 : RegId) (s : State) :
    exec (.xor rd rs2 rs1) s = .next (s.setReg rd (s.reg rs1 ^^^ s.reg rs2)).nextPc := rfl

@[simp] theorem exec_cpy (rd : RegId) (imm8 : Int) (s : State) :
    exec (.cpy rd imm8) s = .next (s.setReg rd (immWord imm8)).nextPc := rfl

theorem exec_load_of_ok {imm5 : Int} {rb : RegId} (rt : RegId) (h : s.dataCheck (s.effAddr imm5 rb) = .ok ()) :
    exec (.load imm5 rb rt) s =
      .next (s.setReg rt (s.mem.readWord s.launch.endian (s.effAddr imm5 rb).toNat)).nextPc :=
  execLoad_next.2 ⟨State.dataCheck_ok.1 h, rfl⟩

theorem exec_store_of_ok {imm5 : Int} {rb : RegId} (rt : RegId) (h : s.dataCheck (s.effAddr imm5 rb) = .ok ()) :
    exec (.store imm5 rb rt) s =
      .next (State.nextPc
        { s with mem := s.mem.writeWord s.launch.endian (s.effAddr imm5 rb).toNat (s.reg rt) }) :=
  execStore_next.2 ⟨State.dataCheck_ok.1 h, rfl⟩

theorem exec_load_of_error {imm5 : Int} {rb : RegId} (rt : RegId) (h : s.dataCheck (s.effAddr imm5 rb) = .error f) :
    exec (.load imm5 rb rt) s = .fault f :=
  execLoad_fault.2 h

theorem exec_store_of_error {imm5 : Int} {rb : RegId} (rt : RegId) (h : s.dataCheck (s.effAddr imm5 rb) = .error f) :
    exec (.store imm5 rb rt) s = .fault f :=
  execStore_fault.2 h

/-! ### What an instruction that completes leaves, and where one stops -/

/-- No instruction changes the launch arguments (R36, R53). -/
theorem exec_next_launch {i : Instr} (h : exec i s = .next t) : t.launch = s.launch := by
  obtain ⟨_, _, _, rfl⟩ | ⟨_, _, _, rfl⟩ | ⟨_, _, _, _, _, rfl⟩ := exec_next_cases h <;> rfl

/-- No instruction changes a register but the one it writes (R24). -/
theorem exec_next_reg {i : Instr} {r : RegId} (h : exec i s = .next t) (hr : i.writes ≠ some r) :
    t.reg r = s.reg r := by
  obtain ⟨_, _, _, rfl⟩ | ⟨rd, _, hw, rfl⟩ | ⟨_, _, _, _, _, rfl⟩ := exec_next_cases h
  · rfl
  · have hne : r ≠ rd := fun he => hr (he ▸ hw)
    simp [hne]
  · rfl

/-- An instruction stops only in the data access of a LOAD or STORE (R43, R44). -/
theorem exec_fault {i : Instr} : exec i s = .fault f ↔
    ∃ imm5 rb rt, (i = .load imm5 rb rt ∨ i = .store imm5 rb rt) ∧ s.dataCheck (s.effAddr imm5 rb) = .error f := by
  constructor
  · intro h
    cases i with
    | load imm5 rb rt => exact ⟨imm5, rb, rt, .inl rfl, execLoad_fault.1 h⟩
    | store imm5 rb rt => exact ⟨imm5, rb, rt, .inr rfl, execStore_fault.1 h⟩
    | bne | add | sll | xor | cpy => simp at h
  · rintro ⟨imm5, rb, rt, rfl | rfl, h⟩
    · exact exec_load_of_error rt h
    · exact exec_store_of_error rt h

/-- No instruction raises `FetchMisaligned`: only a fetch does (R47, R121). -/
theorem exec_ne_fetchMisaligned (i : Instr) (s : State) (p : Word) : exec i s ≠ .fault (.fetchMisaligned p) := by
  intro h
  obtain ⟨_, _, _, _, hd⟩ := exec_fault.1 h
  simp [State.dataCheck_error] at hd

/-! ### States that agree on all but the registers -/

/-- The two states have the same pc, memory and launch arguments. -/
structure State.SameButRegs (s₁ s₂ : State) : Prop where
  pc : s₁.pc = s₂.pc
  mem : s₁.mem = s₂.mem
  launch : s₁.launch = s₂.launch

/-- The test of a data access looks at the launch arguments only (R44). -/
theorem State.dataCheck_congr (h : s₁.launch = s₂.launch) (ea : Word) : s₁.dataCheck ea = s₂.dataCheck ea := by
  simp only [State.dataCheck, h]

/-- Equal bases give equal effective addresses (R90). -/
theorem State.effAddr_congr {rb : RegId} (h : s₁.reg rb = s₂.reg rb) (imm5 : Int) :
    s₁.effAddr imm5 rb = s₂.effAddr imm5 rb := by
  rw [State.effAddr_eq, State.effAddr_eq, h]

/-- States with the same launch arguments and equal bases test a data access alike (R44, R90). -/
theorem State.dataCheck_effAddr_congr {rb : RegId} (hl : s₁.launch = s₂.launch) (hb : s₁.reg rb = s₂.reg rb)
    (imm5 : Int) : s₁.dataCheck (s₁.effAddr imm5 rb) = s₂.dataCheck (s₂.effAddr imm5 rb) := by
  rw [State.effAddr_congr hb, State.dataCheck_congr hl]

/-! ### Immediates and slots -/

/-- The signed value of an immediate's word, for every number 32 bits hold (R68). -/
theorem immWord_toInt {imm : Int} (hlo : -2 ^ 31 ≤ imm) (hhi : imm < 2 ^ 31) : (immWord imm).toInt = imm :=
  BitVec.toInt_ofInt_eq_self (by decide) hlo hhi

/-- The step of 4 as an immediate (D2). -/
theorem immWord_four : immWord 4 = 4 := rfl

/-- Moving the pc by an immediate moves its place within a slot by it, modulo 4 (R28, R30). -/
theorem toNat_add_immWord_sub_emod_four (p base : Word) (imm : Int) :
    ((p + immWord imm - base).toNat : Int) % 4 = ((p - base).toNat + imm) % 4 := by
  have hcomm : p + immWord imm - base = (p - base) + immWord imm := by bv_omega
  have himm := immWord_toNat imm
  rw [hcomm, BitVec.toNat_add]
  omega

end Sys2Proof.Machine
end

