-- ==== Sys2Proof/Proofs/StateFamily.lean ====
section
/-! PROOFS. Reset, fetch alignment, the next pc, and the registers each instruction reads and writes. -/

namespace Sys2Proof.Machine

variable {s s₁ s₂ t : State}

/-! ### Reset -/

/-- The largest `DMEM` holds exactly the multiples of 4 below 2^32 (R46). -/
theorem reset_inDmem (a : Nat) : State.reset.launch.inDmem a = true ↔ a % 4 = 0 ∧ a < 2 ^ 32 := by
  have hdmem : State.reset.launch.dmem = [⟨0, 2 ^ 30⟩] := rfl
  simp only [Launch.inDmem, hdmem, List.any_cons, List.any_nil, Bool.or_false, Bool.and_eq_true, decide_eq_true_eq,
    Region.covers_iff]
  omega

/-- Every register holds 0 at reset (log 4). -/
theorem reset_reg (r : RegId) : State.reset.reg r = 0 := by
  simp [State.reset, State.start, State.reg]

/-- The fetch at reset is already at the end of the empty program (R47, R143). -/
theorem reset_fetch : State.reset.fetch = .error (.halted 0) :=
  State.fetch_error.2 (.inl ⟨rfl, by rw [reset_reg]⟩)

/-- Settles O11: each field is read off, and the first fetch is at the empty program's end. -/
theorem resetHoldsNoProgramAndHalts : Obligations.ResetHoldsNoProgramAndHalts :=
  ⟨rfl, rfl, fun _ => rfl, reset_reg, rfl, reset_inDmem, step_fault.2 (.inl reset_fetch)⟩

/-! ### Slots and successors -/

/-- Settles O13: the fetch raises `FetchMisaligned` exactly off a slot, and no instruction raises it. -/
theorem fetchMisalignedExactlyOffASlot : Obligations.FetchMisalignedExactlyOffASlot := by
  intro s p
  rw [step_fault, State.fetch_error]
  constructor
  · rintro (hfetch | ⟨w, -, hexec⟩)
    · simpa [State.fetchOffset] using hfetch
    · exact absurd hexec (exec_ne_fetchMisaligned _ s p)
  · rintro ⟨hoff, rfl⟩
    exact .inl (.inr (.inl ⟨hoff, rfl⟩))

/-- Settles O24: of the three things an instruction can do, only a branch moves the pc by anything but 4. -/
theorem successorsAreNextOrBranchTarget : Obligations.SuccessorsAreNextOrBranchTarget := by
  intro i s t h
  obtain ⟨imm11, rs, rfl, rfl⟩ | ⟨_, _, _, rfl⟩ | ⟨_, _, _, _, _, rfl⟩ := exec_next_cases h
  · by_cases hz : s.reg rs = 0
    · exact .inl (by rw [if_pos hz]; rfl)
    · exact .inr ⟨imm11, rs, rfl, hz, by rw [if_neg hz]; rfl⟩
  · exact .inl rfl
  · exact .inl rfl

/-- Settles O15: by the two successors of O24, each of which moves the pc by a known immediate. -/
theorem pcLeavesSlotsOnlyByTakenBranch : Obligations.PcLeavesSlotsOnlyByTakenBranch := by
  intro s t hs hstep ht
  obtain ⟨w, hfetch, hexec⟩ := step_next.1 hstep
  rw [exec_next_launch hexec] at ht
  obtain hpc | ⟨imm11, rs, hi, hrs, hpc⟩ := successorsAreNextOrBranchTarget _ s t hexec
  · have hmove := toNat_add_immWord_sub_emod_four s.pc s.launch.progBase 4
    rw [immWord_four, ← hpc] at hmove
    omega
  · have hmove := toNat_add_immWord_sub_emod_four s.pc s.launch.progBase imm11
    rw [immWord, ← hpc] at hmove
    exact ⟨w, imm11, rs, hfetch, hi, hrs, by omega⟩

/-! ### The registers read and written -/

/-- Settles O38: the CPY's constant is in the register, and the ADD reads it there. -/
theorem everyRegisterReadsBackWhatWasWritten : Obligations.EveryRegisterReadsBackWhatWasWritten := by
  intro s r rd q imm8 hlo hhi hq
  refine ⟨_, _, exec_cpy r imm8 s, exec_add rd q r _, ?_, ?_⟩
  · simpa using immWord_toInt (imm := imm8) (by omega) (by omega)
  · have himm := immWord_toNat imm8
    simp only [State.nextPc_reg, State.reg_setReg, if_true, if_neg hq, BitVec.toNat_add]
    omega

/-- Two outcomes are the same but for registers other than the one `w` written (R24). -/
def SameResult (w : Option RegId) : Result → Result → Prop
  | .next t₁, .next t₂ => t₁.pc = t₂.pc ∧ t₁.mem = t₂.mem ∧ t₁.launch = t₂.launch ∧ ∀ r, w = some r → t₁.reg r = t₂.reg r
  | .fault f, .fault g => f = g
  | .refused _, .refused _ => True
  | _, _ => False

/-- Writing the same value to the same register of states that agree otherwise gives the same result. -/
theorem sameResult_setReg (h : s₁.SameButRegs s₂) (rd : RegId) {v₁ v₂ : Word} (hv : v₁ = v₂) :
    SameResult (some rd) (.next (s₁.setReg rd v₁).nextPc) (.next (s₂.setReg rd v₂).nextPc) := by
  refine ⟨congrArg (· + 4) h.pc, h.mem, h.launch, fun r hr => ?_⟩
  obtain rfl : rd = r := Option.some.inj hr
  simpa using hv

/-- An instruction gives the same result in states that agree on all but the registers it does not read (R24). -/
theorem exec_sameResult {i : Instr} (h : s₁.SameButRegs s₂) (hr : ∀ r ∈ i.reads, s₁.reg r = s₂.reg r) :
    SameResult i.writes (exec i s₁) (exec i s₂) := by
  cases i with
  | bne imm11 rs =>
    have hrs : s₁.reg rs = s₂.reg rs := hr rs (by simp [Instr.reads])
    rw [exec_bne, exec_bne, hrs, h.pc]
    exact ⟨rfl, h.mem, h.launch, fun r hw => nomatch hw⟩
  | load imm5 rb rt =>
    have hrb : s₁.reg rb = s₂.reg rb := hr rb (by simp [Instr.reads])
    have hea := State.effAddr_congr hrb imm5
    have hcheck := State.dataCheck_effAddr_congr h.launch hrb imm5
    cases hd : s₂.dataCheck (s₂.effAddr imm5 rb) with
    | ok =>
      rw [exec_load_of_ok rt (hcheck.trans hd), exec_load_of_ok rt hd]
      exact sameResult_setReg h rt (by rw [h.mem, h.launch, hea])
    | error f =>
      rw [exec_load_of_error rt (hcheck.trans hd), exec_load_of_error rt hd]
      rfl
  | store imm5 rb rt =>
    have hrb : s₁.reg rb = s₂.reg rb := hr rb (by simp [Instr.reads])
    have hea := State.effAddr_congr hrb imm5
    have hcheck := State.dataCheck_effAddr_congr h.launch hrb imm5
    have hrt : s₁.reg rt = s₂.reg rt := hr rt (by simp [Instr.reads])
    cases hd : s₂.dataCheck (s₂.effAddr imm5 rb) with
    | ok =>
      rw [exec_store_of_ok rt (hcheck.trans hd), exec_store_of_ok rt hd]
      exact ⟨congrArg (· + 4) h.pc, by simp only [State.nextPc_mem, h.mem, h.launch, hea, hrt], h.launch,
        fun r hw => nomatch hw⟩
    | error f =>
      rw [exec_store_of_error rt (hcheck.trans hd), exec_store_of_error rt hd]
      rfl
  | add rd rs2 rs1 =>
    exact sameResult_setReg h rd (by rw [hr rs1 (by simp [Instr.reads]), hr rs2 (by simp [Instr.reads])])
  | sll rd rs2 rs1 =>
    exact sameResult_setReg h rd (by rw [hr rs1 (by simp [Instr.reads]), hr rs2 (by simp [Instr.reads])])
  | xor rd rs2 rs1 =>
    exact sameResult_setReg h rd (by rw [hr rs1 (by simp [Instr.reads]), hr rs2 (by simp [Instr.reads])])
  | cpy rd imm8 => exact sameResult_setReg h rd rfl

/-- Settles O23: the frame of the written register, and the same result from the same registers read. -/
theorem registersReadAndWrittenByTheTable : Obligations.RegistersReadAndWrittenByTheTable :=
  ⟨fun _ _ _ _ => exec_next_reg, fun _ _ _ hpc hmem hlaunch => exec_sameResult ⟨hpc, hmem, hlaunch⟩⟩

end Sys2Proof.Machine
end

