-- ==== Sys2Proof/Proofs/OperandsBear.lean ====
section
/-! PROOFS. Each listed operand bears on the result (O40): for each instruction two states that differ in the operand
alone and end differently, and for every other register, and the two forms of R72 and R103 a, why none exist. -/

namespace Sys2Proof.Machine

/-- The next states differ in the pc, in memory or in the register the instruction writes. -/
def ResultsDiffer (i : Instr) (t₁ t₂ : State) : Prop :=
  t₁.pc ≠ t₂.pc ∨ t₁.mem ≠ t₂.mem ∨ ∃ w, i.writes = some w ∧ t₁.reg w ≠ t₂.reg w

/-- Two states that differ in register `r` alone, and in which the instruction completes, get different results. -/
def BearsOnResult (i : Instr) (r : RegId) : Prop :=
  ∃ s₁ s₂ t₁ t₂ : State,
    s₁.pc = s₂.pc ∧ s₁.mem = s₂.mem ∧ s₁.launch = s₂.launch ∧ (∀ q, q ≠ r → s₁.reg q = s₂.reg q) ∧
      exec i s₁ = .next t₁ ∧ exec i s₂ = .next t₂ ∧ ResultsDiffer i t₁ t₂

/-! ### Registers that do not bear on the result -/

/-- The same result is no different one. -/
theorem not_resultsDiffer_of_sameResult {i : Instr} {t₁ t₂ : State}
    (h : SameResult i.writes (.next t₁) (.next t₂)) : ¬ ResultsDiffer i t₁ t₂ := by
  obtain ⟨hpc, hmem, -, hreg⟩ := h
  rintro (hd | hd | ⟨w, hw, hd⟩)
  · exact hd hpc
  · exact hd hmem
  · exact hd (hreg w hw)

/-- A register the table of R24 does not list as read does not bear on the result. -/
theorem mem_reads_of_bearsOnResult {i : Instr} {r : RegId} (h : BearsOnResult i r) : r ∈ i.reads := by
  obtain ⟨s₁, s₂, t₁, t₂, hpc, hmem, hlaunch, hregs, h₁, h₂, hdiff⟩ := h
  by_contra hr
  have hsame := exec_sameResult ⟨hpc, hmem, hlaunch⟩ fun q hq => hregs q fun he => hr (he ▸ hq)
  rw [h₁, h₂] at hsame
  exact not_resultsDiffer_of_sameResult hsame hdiff

/-- BNE with the offset +4 goes on to the next instruction, taken or not (R72, R80 c). -/
theorem exec_bne_four (rs : RegId) (s : State) : exec (.bne 4 rs) s = .next s.nextPc := by
  rw [exec_bne, immWord_four, ite_self]
  rfl

theorem not_bearsOnResult_bne_four (rs r : RegId) : ¬ BearsOnResult (.bne 4 rs) r := by
  rintro ⟨s₁, s₂, t₁, t₂, hpc, hmem, hlaunch, -, h₁, h₂, hdiff⟩
  obtain rfl := Host.Outcome.next.inj ((exec_bne_four rs s₁).symm.trans h₁)
  obtain rfl := Host.Outcome.next.inj ((exec_bne_four rs s₂).symm.trans h₂)
  exact not_resultsDiffer_of_sameResult (i := .bne 4 rs) (t₁ := s₁.nextPc) (t₂ := s₂.nextPc)
    ⟨congrArg (· + 4) hpc, hmem, hlaunch, fun w hw => nomatch hw⟩ hdiff

theorem not_bearsOnResult_xor_self (rd rs r : RegId) : ¬ BearsOnResult (.xor rd rs rs) r := by
  rintro ⟨s₁, s₂, t₁, t₂, hpc, hmem, hlaunch, -, h₁, h₂, hdiff⟩
  have hsame := sameResult_setReg ⟨hpc, hmem, hlaunch⟩ rd
    (show s₁.reg rs ^^^ s₁.reg rs = s₂.reg rs ^^^ s₂.reg rs by rw [BitVec.xor_self, BitVec.xor_self])
  rw [← exec_xor, ← exec_xor, h₁, h₂] at hsame
  exact not_resultsDiffer_of_sameResult (i := .xor rd rs rs) hsame hdiff

/-! ### Registers that bear on the result -/

/-- One state with two values of the register that end differently show that it bears on the result. -/
theorem bearsOnResult_of_setReg {i : Instr} {r : RegId} (s : State) (a b : Word) {t₁ t₂ : State}
    (h₁ : exec i (s.setReg r a) = .next t₁) (h₂ : exec i (s.setReg r b) = .next t₂) (hdiff : ResultsDiffer i t₁ t₂) :
    BearsOnResult i r :=
  ⟨s.setReg r a, s.setReg r b, t₁, t₂, rfl, rfl, rfl, fun q hq => by simp [hq], h₁, h₂, hdiff⟩

/-- The state the witnesses start from: every register 1, no program, the largest `DMEM`. -/
def onesState (mem : Memory) : State := State.start Launch.reset mem (Vector.replicate 16 1)

@[simp] theorem onesState_mem (mem : Memory) : (onesState mem).mem = mem := rfl

@[simp] theorem onesState_reg (mem : Memory) (r : RegId) : (onesState mem).reg r = 1 := by
  simp [onesState, State.start, State.reg]

/-- A BNE whose offset is not +4: a zero register goes to the next instruction, a non-zero one does not. -/
theorem bearsOnResult_bne {imm11 : Int} {rs : RegId} (hwf : (Instr.bne imm11 rs).WellFormed) (h4 : imm11 ≠ 4) :
    BearsOnResult (.bne imm11 rs) rs := by
  refine bearsOnResult_of_setReg (onesState []) 0 1 (exec_bne ..) (exec_bne ..) (.inl fun hpc => h4 ?_)
  obtain ⟨hlo, hhi⟩ := (wellFormed_bne imm11 rs).1 hwf
  have himm : (4 : Word) = immWord imm11 := by simpa using hpc
  rw [← immWord_toInt (imm := imm11) (by omega) (by omega), ← himm]
  rfl

/-- An instruction that writes a function of two registers: with every other register 1, the values 0 and 1 of an
operand give different results when the function does, be it the first operand, the second or both. -/
theorem bearsOnResult_of_op {i : Instr} {op : Word → Word → Word} {rd rs2 rs1 r : RegId}
    (hexec : ∀ s, exec i s = .next (s.setReg rd (op (s.reg rs1) (s.reg rs2))).nextPc) (hw : i.writes = some rd)
    (hr : r = rs1 ∨ r = rs2) (hfirst : op 0 1 ≠ op 1 1) (hsecond : op 1 0 ≠ op 1 1)
    (hboth : rs1 = rs2 → op 0 0 ≠ op 1 1) : BearsOnResult i r := by
  refine bearsOnResult_of_setReg (onesState []) 0 1 (hexec _) (hexec _) (.inr (.inr ⟨rd, hw, ?_⟩))
  by_cases heq : rs1 = rs2
  · obtain rfl : rs1 = r := by simpa [← heq, eq_comm] using hr
    simpa [← heq] using hboth heq
  · obtain rfl | rfl := hr
    · simpa [Ne.symm heq] using hfirst
    · simpa [heq] using hsecond

/-! ### LOAD and STORE -/

/-- The base register's value that makes an effective address. -/
def baseFor (imm5 : Int) (ea : Word) : Word := ea - 4 * immWord imm5

section

variable {s : State} {imm5 : Int} {rb : RegId} {ea : Word}

/-- With that base, the effective address is the one asked for (R90). -/
theorem effAddr_of_reg_eq_baseFor (hb : s.reg rb = baseFor imm5 ea) : s.effAddr imm5 rb = ea := by
  rw [State.effAddr_eq, hb, baseFor, BitVec.sub_add_cancel]

/-- In the largest `DMEM` every aligned access goes through (R46). -/
theorem dataCheck_of_aligned (hl : s.launch = Launch.reset) (ha : ea.toNat % 4 = 0) : s.dataCheck ea = .ok () :=
  State.dataCheck_ok.2 ⟨ha, hl ▸ (reset_inDmem ea.toNat).2 ⟨ha, ea.isLt⟩⟩

/-- What a LOAD from an aligned address does in the largest `DMEM`. -/
theorem exec_load_at (rt : RegId) (hl : s.launch = Launch.reset) (hb : s.reg rb = baseFor imm5 ea)
    (ha : ea.toNat % 4 = 0) :
    exec (.load imm5 rb rt) s = .next (s.setReg rt (s.mem.readWord .little ea.toNat)).nextPc := by
  have hea := effAddr_of_reg_eq_baseFor hb
  rw [exec_load_of_ok rt (hea.symm ▸ dataCheck_of_aligned hl ha), hea, hl]
  rfl

/-- What a STORE to an aligned address does in the largest `DMEM`. -/
theorem exec_store_at (rt : RegId) (hl : s.launch = Launch.reset) (hb : s.reg rb = baseFor imm5 ea)
    (ha : ea.toNat % 4 = 0) :
    exec (.store imm5 rb rt) s =
      .next (State.nextPc { s with mem := s.mem.writeWord .little ea.toNat (s.reg rt) }) := by
  have hea := effAddr_of_reg_eq_baseFor hb
  rw [exec_store_of_ok rt (hea.symm ▸ dataCheck_of_aligned hl ha), hea, hl]
  rfl

end

/-- Memory with the word 1 at address 0 and the word 0 at address 4. -/
def twoWords : Memory := (Memory.writeWord .little [] 0 1).writeWord .little 4 0

theorem readWord_twoWords_zero : twoWords.readWord .little 0 = 1 := by
  rw [twoWords, Memory.readWord_writeWord_ne _ _ _ _ _ (by decide), Memory.readWord_writeWord]

theorem readWord_twoWords_four : twoWords.readWord .little 4 = 0 := Memory.readWord_writeWord _ _ _ _

/-- A LOAD's base bears on it: the bases for the addresses 0 and 4 load the two different words there. -/
theorem bearsOnResult_load (imm5 : Int) (rb rt : RegId) : BearsOnResult (.load imm5 rb rt) rb := by
  refine bearsOnResult_of_setReg (onesState twoWords) (baseFor imm5 0) (baseFor imm5 4)
    (exec_load_at (ea := 0) rt rfl (by simp) rfl) (exec_load_at (ea := 4) rt rfl (by simp) rfl)
    (.inr (.inr ⟨rt, rfl, ?_⟩))
  have hwords : twoWords.readWord .little 0 ≠ twoWords.readWord .little 4 := by
    rw [readWord_twoWords_zero, readWord_twoWords_four]
    decide
  simpa using hwords

/-- A STORE's base bears on it: into an empty memory, the base for address 0 writes the byte there and the base for
address 4 does not. -/
theorem bearsOnResult_store_base (imm5 : Int) (rb rt : RegId) : BearsOnResult (.store imm5 rb rt) rb := by
  refine bearsOnResult_of_setReg (onesState []) (baseFor imm5 0) (baseFor imm5 4)
    (exec_store_at (ea := 0) rt rfl (by simp) rfl) (exec_store_at (ea := 4) rt rfl (by simp) rfl)
    (.inr (.inl fun hmem => ?_))
  have hcell := congrArg (Memory.cell · (0 + 0)) hmem
  exact Option.some_ne_none _ ((Memory.cell_writeWord_in [] .little 0 _ (k := 0) (by decide)).symm.trans
    (hcell.trans (Memory.cell_writeWord_out [] .little 4 _ (.inl (by decide)))))

/-- A STORE's value bears on it where it is not the base too: the words 0 and 1 at the same address. -/
theorem bearsOnResult_store_value (imm5 : Int) {rb rt : RegId} (hne : rb ≠ rt) :
    BearsOnResult (.store imm5 rb rt) rt := by
  refine bearsOnResult_of_setReg ((onesState []).setReg rb (baseFor imm5 0)) 0 1
    (exec_store_at (ea := 0) rt rfl (by simp [hne]) rfl) (exec_store_at (ea := 0) rt rfl (by simp [hne]) rfl)
    (.inr (.inl fun hmem => ?_))
  have hword := congrArg (Memory.readWord .little · 0) hmem
  simp [Memory.readWord_writeWord] at hword

/-! ### The statement -/

/-- Each register an instruction reads bears on its result, but for BNE +4 and XOR of a register with itself. -/
theorem bearsOnResult_of_mem_reads {i : Instr} {r : RegId} (hwf : i.WellFormed) (hr : r ∈ i.reads)
    (hbne : ∀ rs, i ≠ .bne 4 rs) (hxor : ∀ rd rs, i ≠ .xor rd rs rs) : BearsOnResult i r := by
  cases i with
  | bne imm11 rs =>
    obtain rfl : r = rs := by simpa [Instr.reads] using hr
    exact bearsOnResult_bne hwf fun h4 => hbne r (h4 ▸ rfl)
  | load imm5 rb rt =>
    obtain rfl : r = rb := by simpa [Instr.reads] using hr
    exact bearsOnResult_load imm5 r rt
  | store imm5 rb rt =>
    by_cases hbase : r = rb
    · exact hbase ▸ bearsOnResult_store_base imm5 rb rt
    · obtain rfl : r = rt := by simpa [Instr.reads, hbase] using hr
      exact bearsOnResult_store_value imm5 (Ne.symm hbase)
  | add rd rs2 rs1 =>
    exact bearsOnResult_of_op (exec_add rd rs2 rs1) rfl (by simpa [Instr.reads] using hr) (by decide) (by decide)
      fun _ => by decide
  | sll rd rs2 rs1 =>
    exact bearsOnResult_of_op (exec_sll rd rs2 rs1) rfl (by simpa [Instr.reads] using hr) (by decide) (by decide)
      fun _ => by decide
  | xor rd rs2 rs1 =>
    exact bearsOnResult_of_op (exec_xor rd rs2 rs1) rfl (by simpa [Instr.reads] using hr) (by decide) (by decide)
      fun heq => absurd (heq ▸ rfl) (hxor rd rs2)
  | cpy rd imm8 => simp [Instr.reads] at hr

/-- Settles O40: two states for each operand that bears on the result, and the same result for every other register. -/
theorem eachListedOperandBearsOnTheResult : Obligations.EachListedOperandBearsOnTheResult := by
  intro i r hwf
  constructor
  · intro h
    refine ⟨mem_reads_of_bearsOnResult h, ?_, ?_⟩
    · rintro rs rfl
      exact not_bearsOnResult_bne_four rs r h
    · rintro rd rs rfl
      exact not_bearsOnResult_xor_self rd rs r h
  · rintro ⟨hr, hbne, hxor⟩
    exact bearsOnResult_of_mem_reads hwf hr hbne hxor

end Sys2Proof.Machine
end

