-- ==== Sys2Proof/Proofs/DecodeEncode.lean ====
section
/-! SUPPORT. Decoding undoes encoding: each field's bits of an encoded word are the operand put there, and its leading
bits are its row's (R62 to R66, R78). -/

namespace Sys2Proof

/-! ### One field of a word made of fields -/

/-- A register field is read off the bits it was placed in (R69). -/
@[simp] theorem extractLsb'_regBits (r : RegId) {lo : Nat} (hlo : lo ≤ 12) :
    (regBits r lo).extractLsb' lo 4 = BitVec.ofFin r := by
  apply BitVec.eq_of_getLsbD_eq
  intro k hk
  rw [BitVec.getLsbD_extractLsb', regBits_getLsbD r lo (by omega)]
  simp [hk, BitVec.getLsbD]

/-- A register field has no bit outside its four (R69). -/
@[simp] theorem extractLsb'_regBits_of_disjoint (r : RegId) {lo lo' n : Nat} (hn : lo' + n ≤ 16)
    (h : lo' + n ≤ lo ∨ lo + 4 ≤ lo') : (regBits r lo).extractLsb' lo' n = 0 := by
  apply BitVec.eq_of_getLsbD_eq
  intro k hk
  rw [BitVec.getLsbD_extractLsb', regBits_getLsbD r lo (by omega)]
  obtain h | h := h
  · simp [show ¬ lo ≤ lo' + k by omega]
  · simp [RegId.testBit_high r (show 4 ≤ lo' + k - lo by omega)]

/-- An immediate is read off the bits it was placed in (R68). -/
@[simp] theorem extractLsb'_immBits {n lo : Nat} (imm : Int) (hlo : lo + n ≤ 16) :
    (immBits n imm lo).extractLsb' lo n = BitVec.ofInt n imm := by
  apply BitVec.eq_of_getLsbD_eq
  intro k hk
  rw [BitVec.getLsbD_extractLsb', immBits_getLsbD n imm lo (by omega)]
  simp [hk]

/-- An immediate has no bit outside its field (R68). -/
@[simp] theorem extractLsb'_immBits_of_disjoint {n lo lo' m : Nat} (imm : Int) (hm : lo' + m ≤ 16)
    (h : lo' + m ≤ lo ∨ lo + n ≤ lo') : (immBits n imm lo).extractLsb' lo' m = 0 := by
  apply BitVec.eq_of_getLsbD_eq
  intro k hk
  rw [BitVec.getLsbD_extractLsb', immBits_getLsbD n imm lo (by omega)]
  obtain h | h := h
  · simp [show ¬ lo ≤ lo' + k by omega]
  · simp [BitVec.getLsbD_of_ge _ _ (show n ≤ lo' + k - lo by omega)]

/-- A register number is the one read from a field that holds it. -/
theorem regField_eq {w : IWord} {lo : Nat} {r : RegId} (h : w.extractLsb' lo 4 = BitVec.ofFin r) :
    regField w lo = r := congrArg BitVec.toFin h

/-- A signed number of `n` bits is the one read from a field that holds it (R68). -/
theorem immField_eq {w : IWord} {lo n : Nat} {imm : Int} (h : w.extractLsb' lo n = BitVec.ofInt n imm) (hn : 0 < n)
    (hlo : -2 ^ (n - 1) ≤ imm) (hhi : imm < 2 ^ (n - 1)) : immField w lo n = imm := by
  rw [immField, h, BitVec.toInt_ofInt_eq_self hn hlo hhi]

/-! ### The row a word selects -/

/-- The instruction of a row of the opcode map, with the fields of its layout (R63 to R66, R70). -/
def Mnemonic.instrOf (m : Mnemonic) (w : IWord) : Instr :=
  match m with
  | .BNE => .bne (immField w 4 11) (regField w 0)
  | .LOAD => .load (immField w 8 5) (regField w 4) (regField w 0)
  | .STORE => .store (immField w 8 5) (regField w 4) (regField w 0)
  | .ADD => .add (regField w 8) (regField w 4) (regField w 0)
  | .SLL => .sll (regField w 8) (regField w 4) (regField w 0)
  | .XOR => .xor (regField w 8) (regField w 4) (regField w 0)
  | .CPY => .cpy (regField w 8) (immField w 0 8)

/-- A word that selects a row agrees with the row's `match` on each bit of the row's `mask` (R70). -/
theorem getLsbD_and_mask_of_selects {m : Mnemonic} {w : IWord} (h : m.selects w = true) (k : Nat) :
    (w.getLsbD k && m.mask.getLsbD k) = m.pattern.getLsbD k := by
  rw [← BitVec.getLsbD_and, eq_of_beq h]

/-- A word that selects a row decodes to that row's instruction (R62, R70): the row fixes the leading bits that the
decoder looks at. -/
theorem decode_eq_instrOf {m : Mnemonic} {w : IWord} (h : m.selects w = true) : decode w = m.instrOf w := by
  have h0 := getLsbD_and_mask_of_selects h 15
  have h1 := getLsbD_and_mask_of_selects h 14
  have h2 := getLsbD_and_mask_of_selects h 13
  have h3 := getLsbD_and_mask_of_selects h 12
  cases m <;> simp [Mnemonic.mask, Mnemonic.pattern] at h0 h1 h2 h3 <;>
    simp [decode, Mnemonic.instrOf, sourceBit, *]

/-! ### The round trip -/

/-- The word of an instruction selects its own row (R70). -/
theorem selects_encode (i : Instr) : i.mnemonic.selects (encode i) = true :=
  match i with
  | .bne imm11 rs => Laws.EncodeRow.bne imm11 rs
  | .load imm5 rb rt => Laws.EncodeRow.load imm5 rb rt
  | .store imm5 rb rt => Laws.EncodeRow.store imm5 rb rt
  | .add rd rs2 rs1 => Laws.EncodeRow.add rd rs2 rs1
  | .sll rd rs2 rs1 => Laws.EncodeRow.sll rd rs2 rs1
  | .xor rd rs2 rs1 => Laws.EncodeRow.xor rd rs2 rs1
  | .cpy rd imm8 => Laws.EncodeRow.cpy rd imm8

/-- Decoding the word of a well-formed instruction gives the instruction back (R63 to R66, R78): the word selects the
instruction's row, and each field of the row holds its operand. -/
theorem decode_encode {i : Instr} (h : i.WellFormed) : decode (encode i) = i := by
  rw [decode_eq_instrOf (selects_encode i)]
  cases i with
  | bne imm11 rs =>
    obtain ⟨hlo, hhi⟩ := (wellFormed_bne imm11 rs).1 h
    rw [Instr.mnemonic, Mnemonic.instrOf,
      immField_eq (imm := imm11) (by simp [encode, BitVec.extractLsb'_or]) (by decide) (by omega) (by omega),
      regField_eq (r := rs) (by simp [encode, BitVec.extractLsb'_or])]
  | load imm5 rb rt =>
    obtain ⟨hlo, hhi⟩ := (wellFormed_load imm5 rb rt).1 h
    rw [Instr.mnemonic, Mnemonic.instrOf,
      immField_eq (imm := imm5) (by simp [encode, BitVec.extractLsb'_or]) (by decide) (by omega) (by omega),
      regField_eq (r := rb) (by simp [encode, BitVec.extractLsb'_or]),
      regField_eq (r := rt) (by simp [encode, BitVec.extractLsb'_or])]
  | store imm5 rb rt =>
    obtain ⟨hlo, hhi⟩ := (wellFormed_store imm5 rb rt).1 h
    rw [Instr.mnemonic, Mnemonic.instrOf,
      immField_eq (imm := imm5) (by simp [encode, BitVec.extractLsb'_or]) (by decide) (by omega) (by omega),
      regField_eq (r := rb) (by simp [encode, BitVec.extractLsb'_or]),
      regField_eq (r := rt) (by simp [encode, BitVec.extractLsb'_or])]
  | add | sll | xor => simp [Instr.mnemonic, Mnemonic.instrOf, encode, regField, BitVec.extractLsb'_or]
  | cpy rd imm8 =>
    obtain ⟨hlo, hhi⟩ := (wellFormed_cpy rd imm8).1 h
    rw [Instr.mnemonic, Mnemonic.instrOf,
      immField_eq (imm := imm8) (by simp [encode, BitVec.extractLsb'_or]) (by decide) (by omega) (by omega),
      regField_eq (r := rd) (by simp [encode, BitVec.extractLsb'_or])]

end Sys2Proof
end

