-- ==== Sys2Proof/Proofs/MemoryLaws.lean ====
section
/-! SUPPORT. Where a word's bytes lie in either byte order, what a data word's four bytes read as, which words exist, and
what a step leaves of the launch arguments and of memory. -/

namespace Sys2Proof.Machine

variable {s t : State}

/-! ### The bytes of a word -/

/-- The byte at offset `k` of a word as the bits R42 names. -/
theorem byteOf_eq (e : Endian) (w : Word) (k : Nat) :
    byteOf e w k = w.extractLsb' (if e = .little then 8 * k else 8 * (3 - k)) 8 := by
  cases e <;> rfl

/-- The byte at offset `k` of a word read is the byte of memory there (R42, R44). -/
theorem Memory.byteOf_readWord (e : Endian) (m : Memory) (a : Nat) {k : Nat} (hk : k < 4) :
    byteOf e (m.readWord e a) k = m.read e (a + k) := by
  obtain ⟨h0, h1, h2, h3⟩ := byteOf_wordOf e (m.read e a) (m.read e (a + 1)) (m.read e (a + 2)) (m.read e (a + 3))
  have : k = 0 ∨ k = 1 ∨ k = 2 ∨ k = 3 := by omega
  obtain rfl | rfl | rfl | rfl := this
  · exact h0
  · exact h1
  · exact h2
  · exact h3

/-- A written byte reads as itself. -/
theorem Memory.read_of_cell_some {e : Endian} {m : Memory} {a : Nat} {b : Byte} (h : m.cell a = some b) :
    m.read e a = b := by
  simp [Memory.read, h]

/-- A byte of an aligned word that nothing wrote reads as its byte of the word's free value (R44, U6). -/
theorem Memory.read_of_cell_none {e : Endian} {m : Memory} {a k : Nat} (ha : a % 4 = 0) (hk : k < 4)
    (h : m.cell (a + k) = none) : m.read e (a + k) = byteOf e (Config.unwrittenWord a) k := by
  have hmod : (a + k) % 4 = k := by omega
  simp [Memory.read, h, hmod]

/-! ### Addresses -/

/-- The effective address as a number (R45, R90). -/
theorem State.effAddr_toNat (s : State) (imm5 : Int) (rb : RegId) :
    ((s.effAddr imm5 rb).toNat : Int) = ((s.reg rb).toNat + 4 * imm5) % 2 ^ 32 := by
  have himm := immWord_toNat imm5
  have hfour : (4 : Word).toNat = 4 := rfl
  rw [State.effAddr_eq, BitVec.toNat_add, BitVec.toNat_mul, hfour]
  omega

/-- A region covers a word exactly when it holds each of its four bytes (R44, R46). -/
theorem Region.covers_iff_bytes (r : Region) (a : Nat) :
    r.covers a = true ↔ ∀ b, a ≤ b → b < a + 4 → r.base ≤ b ∧ b < r.base + 4 * r.words := by
  rw [Region.covers_iff]
  constructor
  · intro h b hlo hhi
    omega
  · intro h
    have hfirst := h a (by omega) (by omega)
    have hlast := h (a + 3) (by omega) (by omega)
    omega

/-! ### What a step keeps -/

/-- A step leaves the launch arguments as they are (R36, R53). -/
theorem step_next_launch (h : step s = .next t) : t.launch = s.launch := by
  obtain ⟨w, -, hexec⟩ := step_next.1 h
  exact exec_next_launch hexec

/-- The invariant speaks of memory and the launch arguments only. -/
theorem State.Inv.congr (h : s.Inv) (hmem : t.mem = s.mem) (hlaunch : t.launch = s.launch) : t.Inv := by
  unfold State.Inv State.memInDmem
  rw [hmem, hlaunch]
  exact h

/-- Writing the word at an aligned address of `DMEM` keeps the invariant (R44, R56). -/
theorem State.Inv.writeWord (h : s.Inv) {ea : Word} (ha : ea.toNat % 4 = 0) (hd : s.launch.inDmem ea.toNat = true)
    (v : Word) : State.Inv { s with mem := s.mem.writeWord s.launch.endian ea.toNat v } := by
  obtain ⟨hwf, hin⟩ := h
  refine ⟨Memory.wf_writeWord hwf _ _ _, fun c hc => ?_⟩
  obtain ⟨hlo, hhi⟩ | hold := Memory.mem_writeWord hc
  · have hbound := ea.isLt
    have hword : c.1 - c.1 % 4 = ea.toNat := by omega
    exact ⟨by omega, by rw [hword]; exact hd⟩
  · exact hin c hold

/-- Only a STORE changes memory (R48). -/
theorem exec_next_mem {i : Instr} (h : exec i s = .next t) (hi : i.mnemonic ≠ .STORE) : t.mem = s.mem := by
  obtain ⟨_, _, _, rfl⟩ | ⟨_, _, _, rfl⟩ | ⟨_, _, _, rfl, _, _⟩ := exec_next_cases h
  · rfl
  · rfl
  · exact absurd rfl hi

end Sys2Proof.Machine
end

