-- ==== Sys2Proof/Proofs/MemoryFamily.lean ====
section
/-! PROOFS. The fetch, the memory invariant, and LOAD and STORE. -/

namespace Sys2Proof.Machine

/-! ### The invariant -/

/-- Settles O19: of the three things an instruction can do, only a STORE changes memory, at an aligned word of `DMEM`. -/
theorem stepKeepsMemoryCanonicalAndInDmem : Obligations.StepKeepsMemoryCanonicalAndInDmem := by
  intro s t hinv hstep
  obtain ⟨w, -, hexec⟩ := step_next.1 hstep
  obtain ⟨_, _, _, rfl⟩ | ⟨_, _, _, rfl⟩ | ⟨_, _, rt, _, ⟨ha, hd⟩, rfl⟩ := exec_next_cases hexec
  · exact hinv.congr rfl rfl
  · exact hinv.congr rfl rfl
  · exact (hinv.writeWord ha hd (s.reg rt)).congr rfl rfl

/-- Settles O18: no byte is listed at reset. -/
theorem resetMemoryIsCanonicalAndInDmem : Obligations.ResetMemoryIsCanonicalAndInDmem :=
  ⟨List.Pairwise.nil, fun _ hc => nomatch hc⟩

/-- Settles O20: what a fetch returns depends on the pc and the launch arguments only. -/
theorem noStepChangesTheProgram : Obligations.NoStepChangesTheProgram := by
  intro s t hstep
  have hlaunch := step_next_launch hstep
  refine ⟨hlaunch, fun p w => ?_⟩
  simp only [State.fetch_ok, State.fetchOffset, State.setPc_pc, State.setPc_launch, hlaunch]

/-! ### The fetch -/

/-- Settles O8: the slot's distance from `PROG_BASE` does not wrap, so the fetch gives the slot's word. -/
theorem stepRunsTheFetchedInstruction : Obligations.StepRunsTheFetchedInstruction := by
  rintro s k w i hk hpc hw rfl
  have hoff : s.fetchOffset = 4 * k := by
    rw [State.fetchOffset, hpc, BitVec.add_comm, BitVec.add_sub_cancel, BitVec.toNat_ofNat]
    omega
  have hfetch : s.fetch = .ok w := State.fetch_ok.2 ⟨by omega, by rw [hoff, Nat.mul_div_cancel_left _ (by decide), hw]⟩
  rw [step, hfetch]

/-- Settles O9: the placed word is slot 0 of the program, and decodes to the instruction it encodes. -/
theorem placedInstructionIsTheOneThatRuns : Obligations.PlacedInstructionIsTheOneThatRuns := by
  intro s i hi
  have hword : BitVec.ofNat 16 ((encode i).toNat % 2 ^ 16) = encode i := by
    rw [Nat.mod_eq_of_lt (encode i).isLt, BitVec.ofNat_toNat, BitVec.setWidth_eq]
  rw [State.withFetchWord, hword]
  exact stepRunsTheFetchedInstruction _ 0 (encode i) i (by decide) (by simp) (by simp) (decode_encode hi)

/-- No instruction raises `FetchOutsideProgram`: only a fetch does (R47, R121). -/
theorem exec_ne_fetchOutsideProgram (i : Instr) (s : State) (p : Word) :
    exec i s ≠ .fault (.fetchOutsideProgram p) := by
  intro h
  obtain ⟨_, _, _, _, hd⟩ := exec_fault.1 h
  simp [State.dataCheck_error] at hd

/-- Settles O14: the fetch raises `FetchOutsideProgram` exactly past the end, and no instruction raises it. -/
theorem fetchOutsideExactlyPastTheEnd : Obligations.FetchOutsideExactlyPastTheEnd := by
  intro s p
  rw [step_fault, State.fetch_error]
  constructor
  · rintro (hfetch | ⟨w, -, hexec⟩)
    · simpa [State.fetchOffset] using hfetch
    · exact absurd hexec (exec_ne_fetchOutsideProgram _ s p)
  · rintro ⟨hslot, hpast, rfl⟩
    exact .inl (.inr (.inr ⟨hslot, hpast, rfl⟩))

/-! ### Data accesses -/

/-- Settles O16: an instruction stops exactly where the tests of its data access do. -/
theorem execStopsExactlyOnBadDataAddress : Obligations.ExecStopsExactlyOnBadDataAddress := by
  intro i s f
  simp only [exec_fault, State.dataCheck_error]

/-- Settles O25: the five other forms by their equations, in which memory does not occur; a LOAD stores nothing. -/
theorem onlyLoadAndStoreTouchMemory : Obligations.OnlyLoadAndStoreTouchMemory := by
  constructor
  · intro i s m hload hstore
    cases i with
    | load => exact absurd rfl hload
    | store => exact absurd rfl hstore
    | bne imm11 rs => exact ⟨_, exec_bne imm11 rs s, rfl, exec_bne imm11 rs _⟩
    | add rd rs2 rs1 => exact ⟨_, exec_add rd rs2 rs1 s, rfl, exec_add rd rs2 rs1 _⟩
    | sll rd rs2 rs1 => exact ⟨_, exec_sll rd rs2 rs1 s, rfl, exec_sll rd rs2 rs1 _⟩
    | xor rd rs2 rs1 => exact ⟨_, exec_xor rd rs2 rs1 s, rfl, exec_xor rd rs2 rs1 _⟩
    | cpy rd imm8 => exact ⟨_, exec_cpy rd imm8 s, rfl, exec_cpy rd imm8 _⟩
  · intro i s t hload hexec
    exact exec_next_mem hexec (by simp [hload])

/-- Settles O29: the sum of R90 on words is the sum on numbers, modulo 2^32. -/
theorem effectiveAddressIsBasePlusScaledOffset : Obligations.EffectiveAddressIsBasePlusScaledOffset :=
  State.effAddr_toNat

/-- Settles O39: a region covers a word exactly when it holds its four bytes. -/
theorem dmemHoldsExactlyTheWholeWordsOfItsRegions : Obligations.DmemHoldsExactlyTheWholeWordsOfItsRegions := by
  intro l a
  simp only [Launch.inDmem, Bool.and_eq_true, decide_eq_true_eq, List.any_eq_true, Region.covers_iff_bytes]

/-! ### LOAD and STORE -/

/-- Settles O30: each byte of the word read is the byte of memory at its address. -/
theorem loadReadsTheWord : Obligations.LoadReadsTheWord := by
  intro s imm5 rb rt ha hd
  refine ⟨_, exec_load_of_ok rt (State.dataCheck_ok.2 ⟨ha, hd⟩), fun k hk => ?_, fun r hr => by simp [hr],
    BitVec.toNat_add _ _, fun _ => rfl, rfl, rfl⟩
  have hbyte := Memory.byteOf_readWord s.launch.endian s.mem (s.effAddr imm5 rb).toNat hk
  simp only [State.nextPc_reg, State.reg_setReg, if_true, ← byteOf_eq, hbyte]
  exact ⟨fun b hb => Memory.read_of_cell_some hb, Memory.read_of_cell_none ha hk⟩

/-- Settles O31: the bytes of a word write, inside the word and outside it. -/
theorem storeWritesTheWord : Obligations.StoreWritesTheWord := by
  intro s imm5 rb rt ha hd
  refine ⟨_, exec_store_of_ok rt (State.dataCheck_ok.2 ⟨ha, hd⟩), fun k hk => ?_,
    fun a => Memory.cell_writeWord_out s.mem _ _ _, fun _ => rfl, BitVec.toNat_add _ _, rfl⟩
  rw [← byteOf_eq]
  exact Memory.cell_writeWord_in s.mem _ _ _ hk

/-- A LOAD that completes leaves the word in `rt` (R91). -/
theorem reg_of_execLoad_next {s t : State} {imm5 : Int} {rb rt : RegId} (h : exec (.load imm5 rb rt) s = .next t) :
    t.reg rt = s.mem.readWord s.launch.endian (s.effAddr imm5 rb).toNat := by
  obtain ⟨-, rfl⟩ := execLoad_next.1 h
  simp

/-- Settles O32: the word read is the word just written, or one that a word write at another aligned address leaves. -/
theorem loadSeesTheLatestStore : Obligations.LoadSeesTheLatestStore := by
  intro s t imm5 imm5' rb rt rb' rt' hstore
  obtain ⟨⟨ha, hd⟩, ht⟩ := execStore_next.1 hstore
  have hlaunch : t.launch = s.launch := ht ▸ rfl
  have hmem : t.mem = s.mem.writeWord s.launch.endian (s.effAddr imm5 rb).toNat (s.reg rt) := ht ▸ rfl
  constructor
  · intro hsame
    have hload := exec_load_of_ok rt' (State.dataCheck_ok.2 (by rw [hsame, hlaunch]; exact ⟨ha, hd⟩))
    exact ⟨_, hload, by rw [reg_of_execLoad_next hload, hsame, hmem, hlaunch, Memory.readWord_writeWord]⟩
  · intro hother v hv
    have hea : t.effAddr imm5' rb' = s.effAddr imm5' rb' := State.effAddr_congr (ht ▸ rfl) imm5'
    obtain ⟨⟨ha', hd'⟩, -⟩ := execLoad_next.1 hv
    have hload := exec_load_of_ok rt' (State.dataCheck_ok.2 (by rw [hea, hlaunch]; exact ⟨ha', hd'⟩))
    refine ⟨_, hload, ?_⟩
    have hne : (s.effAddr imm5' rb').toNat ≠ (s.effAddr imm5 rb).toNat := by
      rwa [hea, ← BitVec.toNat_inj.ne] at hother
    rw [reg_of_execLoad_next hload, reg_of_execLoad_next hv, hea, hmem, hlaunch,
      Memory.readWord_writeWord_ne _ _ _ _ _ (by omega)]

end Sys2Proof.Machine
end

