-- ==== Sys2Proof/Proofs/ByteOrder.lean ====
section
/-! PROOFS. No program observes the byte order (O22): twin states read the same words, store into twin memories, and so
step to twin states. -/

namespace Sys2Proof.Machine

/-! ### Mirrored words -/

/-- The other byte order has a word's bytes the other way round (R42; log 8). -/
theorem byteOf_flipEndian (e : Endian) (w : Word) {k : Nat} (hk : k < 4) :
    byteOf (flipEndian e) w (3 - k) = byteOf e w k := by
  cases e
  · simp only [flipEndian, byteOf, show 3 - (3 - k) = k by omega]
  · rfl

/-- Bytes taken the other way round under the other byte order make the same word (R42; log 8). -/
theorem wordOf_flipEndian (e : Endian) (b0 b1 b2 b3 : Byte) :
    wordOf (flipEndian e) b3 b2 b1 b0 = wordOf e b0 b1 b2 b3 := by
  cases e <;> rfl

/-- The mirror of a byte of an aligned word. -/
theorem mirrorByte_add {a k : Nat} (ha : a % 4 = 0) (hk : k < 4) : mirrorByte (a + k) = a + (3 - k) := by
  unfold mirrorByte
  omega

/-- The memories hold the same words under opposite byte orders: each byte of the one is at its mirror in the other. -/
def Memory.Mirrors (m n : Memory) : Prop := ∀ a, n.cell (mirrorByte a) = m.cell a

section

variable {m n : Memory} {e : Endian} {a : Nat}

/-- Mirrored memories read the same byte at mirrored places, written or not (R42, U6). -/
theorem Memory.Mirrors.read (h : Memory.Mirrors m n) (a : Nat) :
    n.read (flipEndian e) (mirrorByte a) = m.read e a := by
  have hword : mirrorByte a - mirrorByte a % 4 = a - a % 4 := by unfold mirrorByte; omega
  have hplace : mirrorByte a % 4 = 3 - a % 4 := by unfold mirrorByte; omega
  rw [Memory.read, Memory.read, h a, hword, hplace, byteOf_flipEndian _ _ (Nat.mod_lt a (by decide))]

/-- Mirrored memories hold the same word at an aligned address (R42). -/
theorem Memory.Mirrors.readWord (h : Memory.Mirrors m n) (ha : a % 4 = 0) :
    n.readWord (flipEndian e) a = m.readWord e a := by
  have hread : ∀ k, k < 4 → n.read (flipEndian e) (a + (3 - k)) = m.read e (a + k) := fun k hk => by
    rw [← mirrorByte_add ha hk, h.read]
  rw [Memory.readWord, Memory.readWord, ← wordOf_flipEndian e]
  congr 1
  · exact hread 3 (by decide)
  · exact hread 2 (by decide)
  · exact hread 1 (by decide)
  · exact hread 0 (by decide)

/-- Writing a word at an aligned address keeps memories mirrored (R42). -/
theorem Memory.Mirrors.writeWord (h : Memory.Mirrors m n) (ha : a % 4 = 0) (v : Word) :
    Memory.Mirrors (m.writeWord e a v) (n.writeWord (flipEndian e) a v) := by
  intro b
  by_cases hb : b < a ∨ a + 4 ≤ b
  · have hmirror : mirrorByte b < a ∨ a + 4 ≤ mirrorByte b := by unfold mirrorByte; omega
    rw [Memory.cell_writeWord_out _ _ _ _ hmirror, Memory.cell_writeWord_out _ _ _ _ hb, h b]
  · obtain ⟨k, hk, rfl⟩ : ∃ k < 4, b = a + k := ⟨b - a, by omega, by omega⟩
    rw [mirrorByte_add ha hk, Memory.cell_writeWord_in _ _ _ _ (by omega), Memory.cell_writeWord_in _ _ _ _ hk,
      byteOf_flipEndian _ _ hk]

end

/-! ### Twin states -/

/-- The outcomes are the same but for the byte order. -/
def EndianTwinResult : Result → Result → Prop
  | .next s', .next t' => s'.EndianTwin t'
  | .fault f, .fault g => f = g
  | .refused _, .refused _ => True
  | _, _ => False

section

variable {s t : State}

theorem State.EndianTwin.pc (h : s.EndianTwin t) : t.pc = s.pc := by
  obtain ⟨-, hpc, -, -⟩ := h
  exact hpc

theorem State.EndianTwin.reg (h : s.EndianTwin t) (r : RegId) : t.reg r = s.reg r := by
  obtain ⟨hregs, -, -, -⟩ := h
  simp only [State.reg, hregs]

theorem State.EndianTwin.setPc (h : s.EndianTwin t) {p q : Word} (hpq : q = p) : (s.setPc p).EndianTwin (t.setPc q) := by
  obtain ⟨hregs, -, hlaunch, hmem⟩ := h
  exact ⟨hregs, hpq, hlaunch, hmem⟩

theorem State.EndianTwin.nextPc (h : s.EndianTwin t) : s.nextPc.EndianTwin t.nextPc :=
  h.setPc (by rw [h.pc])

theorem State.EndianTwin.setReg (h : s.EndianTwin t) (r : RegId) {v w : Word} (hvw : w = v) :
    (s.setReg r v).EndianTwin (t.setReg r w) := by
  obtain ⟨hregs, hpc, hlaunch, hmem⟩ := h
  exact ⟨by simp only [State.setReg, hregs, hvw], hpc, hlaunch, hmem⟩

/-- `DMEM` is the same for twins, so a data access is tested alike (R44). -/
theorem State.EndianTwin.dataCheck (h : s.EndianTwin t) (ea : Word) : t.dataCheck ea = s.dataCheck ea := by
  obtain ⟨-, -, hlaunch, -⟩ := h
  have hdmem : t.launch.inDmem ea.toNat = s.launch.inDmem ea.toNat := by rw [hlaunch]; rfl
  simp only [State.dataCheck, hdmem]

theorem State.EndianTwin.effAddr (h : s.EndianTwin t) (imm5 : Int) (rb : RegId) :
    t.effAddr imm5 rb = s.effAddr imm5 rb := State.effAddr_congr (h.reg rb) imm5

theorem State.EndianTwin.dataCheck_effAddr (h : s.EndianTwin t) (imm5 : Int) (rb : RegId) :
    t.dataCheck (t.effAddr imm5 rb) = s.dataCheck (s.effAddr imm5 rb) := by
  rw [h.effAddr, h.dataCheck]

/-- The program and its base are the same for twins, so they fetch alike (R47). -/
theorem State.EndianTwin.fetch (h : s.EndianTwin t) : t.fetch = s.fetch := by
  have hpc := h.pc
  have hresult := h.reg 15
  obtain ⟨-, -, hlaunch, -⟩ := h
  have hprog : t.launch.prog = s.launch.prog := hlaunch ▸ rfl
  have hoff : t.fetchOffset = s.fetchOffset := by rw [State.fetchOffset, hpc, hlaunch]; rfl
  simp only [State.fetch, hoff, hprog, hresult, hpc]

/-- Twins read the same word at an aligned address (R42). -/
theorem State.EndianTwin.readWord (h : s.EndianTwin t) {a : Nat} (ha : a % 4 = 0) :
    t.mem.readWord t.launch.endian a = s.mem.readWord s.launch.endian a := by
  obtain ⟨-, -, hlaunch, hmem⟩ := h
  rw [hlaunch]
  exact Memory.Mirrors.readWord hmem ha

/-- Twins that store the same word at an aligned address stay twins (R42). -/
theorem State.EndianTwin.writeWord (h : s.EndianTwin t) {a : Nat} (ha : a % 4 = 0) (v : Word) :
    State.EndianTwin { s with mem := s.mem.writeWord s.launch.endian a v }
      { t with mem := t.mem.writeWord t.launch.endian a v } := by
  obtain ⟨hregs, hpc, hlaunch, hmem⟩ := h
  refine ⟨hregs, hpc, hlaunch, ?_⟩
  rw [hlaunch]
  exact Memory.Mirrors.writeWord hmem ha v

/-- Writing the same value to the same register of twins gives a twin result. -/
theorem State.EndianTwin.setReg_result (h : s.EndianTwin t) (rd : RegId) {v w : Word} (hvw : w = v) :
    EndianTwinResult (.next (s.setReg rd v).nextPc) (.next (t.setReg rd w).nextPc) :=
  (h.setReg rd hvw).nextPc

/-- An instruction takes twins to twins, or stops in both for the same reason (R42). -/
theorem State.EndianTwin.exec (h : s.EndianTwin t) (i : Instr) : EndianTwinResult (exec i s) (exec i t) := by
  cases i with
  | bne imm11 rs =>
    rw [exec_bne, exec_bne]
    exact h.setPc (by rw [h.reg, h.pc])
  | load imm5 rb rt =>
    have hcheck := h.dataCheck_effAddr imm5 rb
    cases hd : s.dataCheck (s.effAddr imm5 rb) with
    | ok =>
      obtain ⟨ha, -⟩ := State.dataCheck_ok.1 hd
      rw [exec_load_of_ok rt hd, exec_load_of_ok rt (hcheck.trans hd)]
      exact h.setReg_result rt (by rw [h.effAddr, h.readWord ha])
    | error f =>
      rw [exec_load_of_error rt hd, exec_load_of_error rt (hcheck.trans hd)]
      rfl
  | store imm5 rb rt =>
    have hcheck := h.dataCheck_effAddr imm5 rb
    cases hd : s.dataCheck (s.effAddr imm5 rb) with
    | ok =>
      obtain ⟨ha, -⟩ := State.dataCheck_ok.1 hd
      rw [exec_store_of_ok rt hd, exec_store_of_ok rt (hcheck.trans hd), h.effAddr, h.reg]
      exact (h.writeWord ha (s.reg rt)).nextPc
    | error f =>
      rw [exec_store_of_error rt hd, exec_store_of_error rt (hcheck.trans hd)]
      rfl
  | add rd rs2 rs1 => exact h.setReg_result rd (by rw [h.reg, h.reg])
  | sll rd rs2 rs1 => exact h.setReg_result rd (by rw [h.reg, h.reg])
  | xor rd rs2 rs1 => exact h.setReg_result rd (by rw [h.reg, h.reg])
  | cpy rd imm8 => exact h.setReg_result rd rfl

/-- A step takes twins to twins, or stops in both for the same reason (R42). -/
theorem State.EndianTwin.step (h : s.EndianTwin t) : EndianTwinResult (step s) (step t) := by
  rw [Machine.step, Machine.step, h.fetch]
  cases s.fetch with
  | ok w => exact h.exec (decode w)
  | error f => rfl

end

/-- Settles O22: twins fetch the same instruction, which takes them to twins or stops in both. -/
theorem byteOrderIsNotObservable : Obligations.ByteOrderIsNotObservable :=
  fun _ _ => State.EndianTwin.step

end Sys2Proof.Machine
end

