-- ==== Sys2Proof/Proofs/EncodingLaws.lean ====
section
/-! SUPPORT. Words, fields and leading digits as numbers: the digits that select a row of the opcode map (R62, R70), what
the fields of a word hold (R63 to R66), and the word as the sum of its placed fields (R78). -/

namespace Sys2Proof

/-! ### The row of a word, by its leading digits -/

/-- How many low bits of a word a row's operands take: the bits its `mask` leaves free (R63 to R66, R70). -/
def Mnemonic.operandBits : Mnemonic → Nat
  | .BNE => 15
  | .LOAD => 13
  | .STORE => 13
  | .ADD => 12
  | .SLL => 12
  | .XOR => 12
  | .CPY => 12

/-- The number the leading digits of a row make: its `match` without the operands' bits (R62, R70). -/
def Mnemonic.leading : Mnemonic → Nat
  | .BNE => 1
  | .LOAD => 0
  | .STORE => 1
  | .ADD => 4
  | .SLL => 5
  | .XOR => 6
  | .CPY => 7

/-- A row's `mask` is ones from its operands' bits up. -/
theorem Mnemonic.mask_getLsbD (m : Mnemonic) {k : Nat} (hk : k < 16) :
    m.mask.getLsbD k = decide (m.operandBits ≤ k) := by
  cases m <;> revert k <;> decide

/-- A row's `match` is its leading digits above the operands' bits. -/
theorem Mnemonic.pattern_toNat (m : Mnemonic) : m.pattern.toNat = m.leading * 2 ^ m.operandBits := by
  cases m <;> rfl

/-- A row's `mask` clears the operands' bits of a word. -/
theorem Mnemonic.and_mask (m : Mnemonic) (w : IWord) : w &&& m.mask = (w >>> m.operandBits) <<< m.operandBits := by
  apply BitVec.eq_of_getLsbD_eq
  intro k hk
  rw [BitVec.getLsbD_and, m.mask_getLsbD hk]
  by_cases h : m.operandBits ≤ k
  · simp [hk, h]
  · simp [hk, h, Nat.lt_of_not_le h]

/-- A word selects a row exactly when its leading digits are the row's (R62, R70). -/
theorem Mnemonic.selects_iff (m : Mnemonic) (w : IWord) :
    m.selects w = true ↔ w.toNat / 2 ^ m.operandBits = m.leading := by
  have hlt : w.toNat / 2 ^ m.operandBits * 2 ^ m.operandBits < 2 ^ 16 :=
    lt_of_le_of_lt (Nat.div_mul_le_self _ _) w.isLt
  rw [Mnemonic.selects, beq_iff_eq, m.and_mask, ← BitVec.toNat_inj, m.pattern_toNat, BitVec.toNat_shiftLeft,
    BitVec.toNat_ushiftRight, Nat.shiftRight_eq_div_pow, Nat.shiftLeft_eq, Nat.mod_eq_of_lt hlt]
  exact Nat.mul_left_inj (Nat.two_pow_pos _).ne'

/-- Every word selects a row (R62, R71). -/
theorem exists_selects (w : IWord) : ∃ m : Mnemonic, m.selects w = true := by
  have hw := w.isLt
  have hrow : w.toNat / 2 ^ 15 = 1 ∨ w.toNat / 2 ^ 13 = 0 ∨ w.toNat / 2 ^ 13 = 1 ∨ w.toNat / 2 ^ 12 = 4 ∨
      w.toNat / 2 ^ 12 = 5 ∨ w.toNat / 2 ^ 12 = 6 ∨ w.toNat / 2 ^ 12 = 7 := by omega
  obtain h | h | h | h | h | h | h := hrow
  · exact ⟨.BNE, (Mnemonic.selects_iff .BNE w).2 h⟩
  · exact ⟨.LOAD, (Mnemonic.selects_iff .LOAD w).2 h⟩
  · exact ⟨.STORE, (Mnemonic.selects_iff .STORE w).2 h⟩
  · exact ⟨.ADD, (Mnemonic.selects_iff .ADD w).2 h⟩
  · exact ⟨.SLL, (Mnemonic.selects_iff .SLL w).2 h⟩
  · exact ⟨.XOR, (Mnemonic.selects_iff .XOR w).2 h⟩
  · exact ⟨.CPY, (Mnemonic.selects_iff .CPY w).2 h⟩

/-- Everything the decoder can answer: the instruction of the row whose leading digits the word has (R62). -/
theorem decode_cases (w : IWord) :
    ∃ m : Mnemonic, w.toNat / 2 ^ m.operandBits = m.leading ∧ decode w = m.instrOf w := by
  obtain ⟨m, hm⟩ := exists_selects w
  exact ⟨m, (m.selects_iff w).1 hm, decode_eq_instrOf hm⟩

@[simp] theorem mnemonic_instrOf (m : Mnemonic) (w : IWord) : (m.instrOf w).mnemonic = m := by
  cases m <;> rfl

/-- A word with a row's leading digits decodes to that row (R62). -/
theorem mnemonic_decode {w : IWord} (m : Mnemonic) (h : w.toNat / 2 ^ m.operandBits = m.leading) :
    (decode w).mnemonic = m := by
  rw [decode_eq_instrOf ((m.selects_iff w).2 h), mnemonic_instrOf]

/-! ### The fields of a word -/

/-- The `n` bits of a word from bit `lo` up, as a number (R6). -/
def fieldNat (w : IWord) (lo n : Nat) : Nat := w.toNat / 2 ^ lo % 2 ^ n

theorem extractLsb'_toNat_eq_fieldNat (w : IWord) (lo n : Nat) : (w.extractLsb' lo n).toNat = fieldNat w lo n := by
  rw [BitVec.extractLsb'_toNat, Nat.shiftRight_eq_div_pow, fieldNat]

/-- The fields above a row's operands hold the row's leading digits (R62). -/
theorem fieldNat_leading {m : Mnemonic} {w : IWord} (h : w.toNat / 2 ^ m.operandBits = m.leading) (j n : Nat) :
    fieldNat w (m.operandBits + j) n = m.leading / 2 ^ j % 2 ^ n := by
  rw [fieldNat, Nat.pow_add, ← Nat.div_div_eq_div_mul, h]

/-- A register field holds an unsigned number (R69). -/
theorem regField_val (w : IWord) (lo : Nat) : (regField w lo).val = fieldNat w lo 4 :=
  extractLsb'_toNat_eq_fieldNat w lo 4

/-- An immediate field holds a signed number in two's complement (R7, R68). -/
theorem immField_eq_signed (w : IWord) (lo : Nat) {n : Nat} (hn : 0 < n) :
    immField w lo n =
      if fieldNat w lo n < 2 ^ (n - 1) then (fieldNat w lo n : Int) else (fieldNat w lo n : Int) - 2 ^ n := by
  have hpow : 2 ^ n = 2 * 2 ^ (n - 1) := by rw [← Nat.pow_succ', Nat.succ_eq_add_one, Nat.sub_add_cancel hn]
  have hcond : 2 * fieldNat w lo n < 2 ^ n ↔ fieldNat w lo n < 2 ^ (n - 1) := by omega
  rw [immField, BitVec.toInt_eq_toNat_cond, extractLsb'_toNat_eq_fieldNat, Nat.cast_pow, Nat.cast_ofNat]
  simp only [hcond]

/-- The range of a signed field (R63, R64, R66, R68). -/
theorem immField_bounds (w : IWord) (lo n : Nat) :
    -2 ^ (n - 1) ≤ immField w lo n ∧ immField w lo n < 2 ^ (n - 1) :=
  ⟨BitVec.le_toInt _, BitVec.toInt_lt⟩

/-- The number an immediate's field holds: the immediate modulo 2 to the field's width (R7, R78). -/
theorem ofInt_toNat_eq_emod (n : Nat) (imm : Int) : ((BitVec.ofInt n imm).toNat : Int) = imm % 2 ^ n := by
  rw [BitVec.toNat_ofInt, Int.toNat_of_nonneg (Int.emod_nonneg _ (by positivity))]
  norm_cast

/-- The signed number of a field has the field's bits: it is the field's number modulo 2 to its width (R7, R68). -/
theorem immField_emod (w : IWord) (lo n : Nat) : immField w lo n % 2 ^ n = fieldNat w lo n := by
  rw [← ofInt_toNat_eq_emod, immField, BitVec.ofInt_toInt, extractLsb'_toNat_eq_fieldNat]

/-- The instruction a word decodes to is well formed (R68, R71). -/
theorem decode_wellFormed (w : IWord) : (decode w).WellFormed := by
  obtain ⟨m, -, hdec⟩ := decode_cases w
  rw [hdec]
  cases m with
  | BNE =>
    obtain ⟨hlo, hhi⟩ := immField_bounds w 4 11
    exact (wellFormed_bne _ _).2 ⟨hlo, Int.le_of_lt_add_one hhi⟩
  | LOAD =>
    obtain ⟨hlo, hhi⟩ := immField_bounds w 8 5
    exact (wellFormed_load _ _ _).2 ⟨hlo, Int.le_of_lt_add_one hhi⟩
  | STORE =>
    obtain ⟨hlo, hhi⟩ := immField_bounds w 8 5
    exact (wellFormed_store _ _ _).2 ⟨hlo, Int.le_of_lt_add_one hhi⟩
  | CPY =>
    obtain ⟨hlo, hhi⟩ := immField_bounds w 0 8
    exact (wellFormed_cpy _ _).2 ⟨hlo, Int.le_of_lt_add_one hhi⟩
  | ADD | SLL | XOR => rfl

/-! ### The word as a sum -/

/-- The number of a word joined from a part at bit `i` and above and a part below it is the sum of theirs. -/
theorem toNat_or_eq_add {x y : IWord} (i : Nat) (hx : x.toNat % 2 ^ i = 0) (hy : y.toNat < 2 ^ i) :
    (x ||| y).toNat = x.toNat + y.toNat := by
  obtain ⟨a, ha⟩ := Nat.dvd_of_mod_eq_zero hx
  rw [BitVec.toNat_or, ha, Nat.two_pow_add_eq_or_of_lt hy]

/-- Placing a number of `n` bits from bit `lo` up multiplies it by `2 ^ lo`: the word has room for it. -/
theorem toNat_shiftLeft_of_fits {x : IWord} {n lo : Nat} (hx : x.toNat < 2 ^ n) (hlo : lo + n ≤ 16) :
    (x <<< lo).toNat = x.toNat * 2 ^ lo := by
  have hlt : x.toNat * 2 ^ lo < 2 ^ 16 :=
    calc x.toNat * 2 ^ lo < 2 ^ n * 2 ^ lo := Nat.mul_lt_mul_of_pos_right hx (Nat.two_pow_pos lo)
      _ = 2 ^ (n + lo) := (Nat.pow_add 2 n lo).symm
      _ ≤ 2 ^ 16 := Nat.pow_le_pow_right (by decide) (by omega)
  rw [BitVec.toNat_shiftLeft, Nat.shiftLeft_eq, Nat.mod_eq_of_lt hlt]

/-- A register field as a number (R69, R78). -/
theorem regBits_toNat (r : RegId) {lo : Nat} (hlo : lo ≤ 12) : (regBits r lo).toNat = r.val * 2 ^ lo := by
  have hr := r.isLt
  have hval : (BitVec.ofNat 16 r.val).toNat = r.val := Nat.mod_eq_of_lt (by omega)
  rw [regBits, toNat_shiftLeft_of_fits (n := 4) (by omega) (by omega), hval]

/-- An immediate field as a number (R68, R78). -/
theorem immBits_toNat {n lo : Nat} (imm : Int) (hlo : lo + n ≤ 16) :
    (immBits n imm lo).toNat = (BitVec.ofInt n imm).toNat * 2 ^ lo := by
  have hval : ((BitVec.ofInt n imm).setWidth 16).toNat = (BitVec.ofInt n imm).toNat :=
    BitVec.toNat_setWidth_of_le (by omega)
  rw [immBits, toNat_shiftLeft_of_fits (n := n) (hval ▸ (BitVec.ofInt n imm).isLt) hlo, hval]

/-- Two register fields below bit 8 add their numbers to the rest of the word (R64, R65). -/
theorem toNat_or_lowRegs {x : IWord} (rs2 rs1 : RegId) (hx : x.toNat % 2 ^ 8 = 0) :
    (x ||| regBits rs2 4 ||| regBits rs1 0).toNat = x.toNat + rs2.val * 2 ^ 4 + rs1.val := by
  have h2 := rs2.isLt
  have h1 := rs1.isLt
  have hb2 := regBits_toNat rs2 (lo := 4) (by decide)
  have hb1 := regBits_toNat rs1 (lo := 0) (by decide)
  have hhigh := toNat_or_eq_add 8 hx (y := regBits rs2 4) (by omega)
  rw [toNat_or_eq_add 4 (by omega) (by omega), hhigh]
  omega

/-- The number of a type 1 word (R63, R78). -/
theorem encode_bne_toNat (imm11 : Int) (rs : RegId) :
    ((encode (.bne imm11 rs)).toNat : Int) = 0x8000 + imm11 % 2 ^ 11 * 2 ^ 4 + rs.val := by
  have himm := (BitVec.ofInt 11 imm11).isLt
  have hrs := rs.isLt
  have hf := immBits_toNat (n := 11) (lo := 4) imm11 (by decide)
  have hr := regBits_toNat rs (lo := 0) (by decide)
  have hc : (0x8000#16).toNat = 0x8000 := rfl
  have hhigh := toNat_or_eq_add 15 (x := 0x8000#16) (y := immBits 11 imm11 4) (by omega) (by omega)
  rw [encode, toNat_or_eq_add 4 (by omega) (by omega), hhigh, ← ofInt_toNat_eq_emod]
  omega

/-- The number of a type 2 word with the leading digits `c` (R64, R78). -/
theorem toNat_type2 (c : IWord) (hc : c.toNat % 2 ^ 13 = 0) (imm5 : Int) (rb rt : RegId) :
    ((c ||| immBits 5 imm5 8 ||| regBits rb 4 ||| regBits rt 0).toNat : Int) =
      c.toNat + imm5 % 2 ^ 5 * 2 ^ 8 + rb.val * 2 ^ 4 + rt.val := by
  have himm := (BitVec.ofInt 5 imm5).isLt
  have hf := immBits_toNat (n := 5) (lo := 8) imm5 (by decide)
  have hhigh := toNat_or_eq_add 13 hc (y := immBits 5 imm5 8) (by omega)
  rw [toNat_or_lowRegs rb rt (by omega), hhigh, ← ofInt_toNat_eq_emod]
  omega

/-- The number of a type 3 word with the leading digits `c` (R65, R78). -/
theorem toNat_type3 (c : IWord) (hc : c.toNat % 2 ^ 12 = 0) (rd rs2 rs1 : RegId) :
    (c ||| regBits rd 8 ||| regBits rs2 4 ||| regBits rs1 0).toNat =
      c.toNat + rd.val * 2 ^ 8 + rs2.val * 2 ^ 4 + rs1.val := by
  have hrd := rd.isLt
  have hf := regBits_toNat rd (lo := 8) (by decide)
  have hhigh := toNat_or_eq_add 12 hc (y := regBits rd 8) (by omega)
  rw [toNat_or_lowRegs rs2 rs1 (by omega), hhigh, hf]

/-- The number of a type 4 word (R66, R78). -/
theorem encode_cpy_toNat (rd : RegId) (imm8 : Int) :
    ((encode (.cpy rd imm8)).toNat : Int) = 0x7000 + rd.val * 2 ^ 8 + imm8 % 2 ^ 8 := by
  have himm := (BitVec.ofInt 8 imm8).isLt
  have hrd := rd.isLt
  have hf := immBits_toNat (n := 8) (lo := 0) imm8 (by decide)
  have hr := regBits_toNat rd (lo := 8) (by decide)
  have hc : (0x7000#16).toNat = 0x7000 := rfl
  have hhigh := toNat_or_eq_add 12 (x := 0x7000#16) (y := regBits rd 8) (by omega) (by omega)
  rw [encode, toNat_or_eq_add 8 (by omega) (by omega), hhigh, ← ofInt_toNat_eq_emod]
  omega

end Sys2Proof
end

