-- ==== Sys2Proof/Proofs/EncodingFamily.lean ====
section
/-! PROOFS. The encoding: the round trips between words and instructions, the opcode map, the layouts and the source's
examples. -/

namespace Sys2Proof

/-- Settles O6: each word is joined from fields that do not overlap, so its number is the sum of theirs. -/
theorem wordBuiltFromFieldsAsNumbers : Obligations.WordBuiltFromFieldsAsNumbers :=
  ⟨encode_bne_toNat, toNat_type2 0x0000#16 rfl, toNat_type2 0x2000#16 rfl, toNat_type3 0x4000#16 rfl,
    toNat_type3 0x5000#16 rfl, toNat_type3 0x6000#16 rfl, encode_cpy_toNat⟩

/-- Settles O1: the word of an instruction selects its row, whose fields hold its operands. -/
theorem encodeThenDecodeIsIdentity : Obligations.EncodeThenDecodeIsIdentity :=
  fun _ => decode_encode

/-! ### Every word is an instruction -/

/-- Encoding the instruction a word decodes to gives the word back (R71): the word is the sum of its leading digits and
its fields, which is how the encoder builds it. -/
theorem encode_decode (w : IWord) : encode (decode w) = w := by
  obtain ⟨hbne, hload, hstore, hadd, hsll, hxor, hcpy⟩ := wordBuiltFromFieldsAsNumbers
  obtain ⟨m, hm, hdec⟩ := decode_cases w
  rw [hdec, ← BitVec.toNat_inj, ← Int.natCast_inj]
  cases m <;>
  · simp only [Mnemonic.operandBits, Mnemonic.leading] at hm
    simp only [Mnemonic.instrOf, hbne, hload, hstore, hadd, hsll, hxor, hcpy, immField_emod, regField_val, fieldNat]
    omega

/-- Settles O2: decoding and encoding undo each other, and what a word decodes to is well formed. -/
theorem everyWordIsExactlyOneInstruction : Obligations.EveryWordIsExactlyOneInstruction := by
  refine ⟨fun w => ⟨⟨decode_wellFormed w, encode_decode w⟩, ?_⟩, by decide, by decide⟩
  rintro i hi rfl
  exact (decode_encode hi).symm

/-! ### The opcode map and the layouts -/

/-- Settles O5: the word of an instruction selects its row, and a word that selects a row decodes to it. -/
theorem maskAndMatchSelectTheDecodedRow : Obligations.MaskAndMatchSelectTheDecodedRow := by
  intro m w
  constructor
  · intro h
    exact mnemonic_decode m ((m.selects_iff w).1 h)
  · rintro rfl
    have h := selects_encode (decode w)
    rwa [encode_decode] at h

/-- Settles O3: the digits looked at make the leading number of one row. -/
theorem leadingDigitsSelectTheInstruction : Obligations.LeadingDigitsSelectTheInstruction := by
  intro w d
  have hw := w.isLt
  refine ⟨fun h0 => mnemonic_decode .BNE ?_, fun h0 h1 h2 => mnemonic_decode .LOAD ?_,
    fun h0 h1 h2 => mnemonic_decode .STORE ?_, fun h0 h1 h2 h3 => mnemonic_decode .ADD ?_,
    fun h0 h1 h2 h3 => mnemonic_decode .SLL ?_, fun h0 h1 h2 h3 => mnemonic_decode .XOR ?_,
    fun h0 h1 h2 h3 => mnemonic_decode .CPY ?_⟩ <;>
  · simp only [d, Mnemonic.operandBits, Mnemonic.leading] at *
    omega

/-- Settles O4: the row's leading digits are the fixed bits, and each field is read off its bits. -/
theorem fieldsOfTheFourFormats : Obligations.FieldsOfTheFourFormats := by
  intro w field signed
  obtain ⟨m, hm, hdec⟩ := decode_cases w
  rw [hdec]
  have hfixed := fieldNat_leading hm
  cases m with
  | BNE => exact ⟨hfixed 0 1, immField_eq_signed w 4 (by decide), regField_val w 0⟩
  | LOAD | STORE =>
    exact ⟨hfixed 2 1, hfixed 1 1, hfixed 0 1, immField_eq_signed w 8 (by decide), regField_val w 4, regField_val w 0⟩
  | ADD | SLL | XOR =>
    exact ⟨hfixed 3 1, hfixed 2 1, hfixed 0 2, regField_val w 8, regField_val w 4, regField_val w 0⟩
  | CPY => exact ⟨hfixed 3 1, hfixed 2 1, hfixed 0 2, regField_val w 8, immField_eq_signed w 0 (by decide)⟩

/-- Settles O7: seven fixed words, decoded. -/
theorem sourceEncodingExamplesDecode : Obligations.SourceEncodingExamplesDecode := by
  refine ⟨?_, ?_, ?_, ?_, ?_, ?_, ?_⟩ <;> decide

end Sys2Proof

namespace Sys2Proof.Machine

/-! ### No step is refused -/

/-- No instruction is refused (R71, R120, R126): each completes, or is a LOAD or STORE that its data access stops. -/
theorem exec_ne_refused (i : Instr) (s : State) (r : Refusal) : exec i s ≠ .refused r := by
  cases i with
  | load imm5 rb rt =>
    cases hd : s.dataCheck (s.effAddr imm5 rb) with
    | ok => simp [exec_load_of_ok rt hd]
    | error f => simp [exec_load_of_error rt hd]
  | store imm5 rb rt =>
    cases hd : s.dataCheck (s.effAddr imm5 rb) with
    | ok => simp [exec_store_of_ok rt hd]
    | error f => simp [exec_store_of_error rt hd]
  | bne | add | sll | xor | cpy => simp

/-- Settles O17: the fetch stops with a fault, and no instruction is refused. -/
theorem stepIsNeverRefused : Obligations.StepIsNeverRefused := by
  intro s r
  rw [step]
  cases s.fetch with
  | ok w => exact exec_ne_refused (decode w) s r
  | error f => simp [raise]

/-! ### BNE -/

/-- Settles O28: the XOR leaves 0 in `rd` exactly when the registers are equal, and the BNE tests that value. -/
theorem xorThenBneComparesTwoRegisters : Obligations.XorThenBneComparesTwoRegisters := by
  intro s rd rs2 rs1 imm11
  have hfour : (4 : Word).toNat = 4 := rfl
  refine ⟨_, _, exec_xor rd rs2 rs1 s, exec_bne imm11 rd _, fun heq => ?_, fun hne => ?_⟩
  · have hzero : s.reg rs1 ^^^ s.reg rs2 = 0 := BitVec.xor_eq_zero_iff.2 heq
    simp only [State.nextPc_reg, State.reg_setReg, if_true, if_pos hzero, State.setPc_pc, State.nextPc_pc,
      State.setReg_pc, BitVec.toNat_add, hfour]
    omega
  · have hnonzero : s.reg rs1 ^^^ s.reg rs2 ≠ 0 := fun h => hne (BitVec.xor_eq_zero_iff.1 h)
    have himm := immWord_toNat imm11
    simp only [State.nextPc_reg, State.reg_setReg, if_true, if_neg hnonzero, State.setPc_pc, State.nextPc_pc,
      State.setReg_pc, BitVec.toNat_add, hfour]
    omega

/-- Settles O27: offset 0 leads back to the BNE's own address, offset +4 to the next instruction, taken or not. -/
theorem bneToItselfHangsAndByFourDoesNothing : Obligations.BneToItselfHangsAndByFourDoesNothing := by
  refine ⟨fun s rs hrs => ?_, fun s rs => exec_bne_four rs s⟩
  have hpc : s.pc + immWord 0 = s.pc := BitVec.add_zero s.pc
  rw [exec_bne, if_neg hrs, hpc]
  rfl

end Sys2Proof.Machine
end

/-! PROOFS. The conditional branch BNE (spec/40_branch.md). -/

namespace Sys2Proof.Machine

/-- Settles O26: BNE only moves the pc, by 4 on a zero register and by the immediate on a non-zero one. -/
theorem bneBranchesOnNonZero : Obligations.BneBranchesOnNonZero := by
  intro s imm11 rs
  have hzero : s.reg rs = 0 ↔ (s.reg rs).toNat = 0 := BitVec.toNat_eq
  refine ⟨_, exec_bne imm11 rs s, fun hne => ?taken, fun heq => ?notTaken, fun _ => rfl, fun _ => rfl, rfl, rfl⟩
  case taken =>
    have himm := immWord_toNat imm11
    rw [if_neg (mt hzero.1 hne), State.setPc_pc, BitVec.toNat_add]
    omega
  case notTaken =>
    rw [if_pos (hzero.2 heq), State.setPc_pc, BitVec.toNat_add]
    rfl

end Sys2Proof.Machine

/-! SUPPORT. The word of an instruction given as a number (R78), what writing one register and going on leaves of the
state (R100), and the value of SLL in each range of its amount (R102). -/

namespace Sys2Proof

/-- The word of a well-formed instruction, given as a number, decodes to the instruction (R78). -/
theorem decode_ofNat_of_encode_toNat {i : Instr} {n : Nat} (hwf : i.WellFormed) (hn : (encode i).toNat = n) :
    decode (BitVec.ofNat 16 n) = i := by
  rw [← hn, BitVec.ofNat_toNat, BitVec.setWidth_eq, decode_encode hwf]

end Sys2Proof

namespace Sys2Proof.Machine

/-- What `t` keeps of `s` when only register `rd` is written and the pc goes on by 4 (R100, D2). -/
def State.KeepsAllBut (rd : RegId) (s t : State) : Prop :=
  (∀ r, r ≠ rd → t.reg r = s.reg r) ∧ t.pc.toNat = (s.pc.toNat + 4) % 2 ^ 32 ∧
    (∀ a, t.mem.cell a = s.mem.cell a) ∧ t.mem = s.mem ∧ t.launch = s.launch

/-- Writing one register and going on keeps everything but that register and the pc (R100). -/
theorem State.keepsAllBut_setReg_nextPc (s : State) (rd : RegId) (v : Word) :
    s.KeepsAllBut rd (s.setReg rd v).nextPc :=
  ⟨fun r hr => by simp [hr], BitVec.toNat_add _ _, fun _ => rfl, rfl, rfl⟩

/-- The register written holds the value after going on (R23). -/
theorem State.reg_setReg_nextPc_self (s : State) (rd : RegId) (v : Word) : (s.setReg rd v).nextPc.reg rd = v := by
  simp

variable {a amount : Word}

/-- SLL by 0 to 31 multiplies by the power of two, modulo 2^32 (R102, D13). -/
theorem shiftLeftSigned_toNat_of_left (hlo : 0 ≤ amount.toInt) (hhi : amount.toInt < 32) :
    (shiftLeftSigned a amount).toNat = a.toNat * 2 ^ amount.toInt.toNat % 2 ^ 32 := by
  obtain ⟨_, _, heq⟩ | ⟨_, hneg, _⟩ | ⟨hout, _⟩ := shiftLeftSigned_cases a amount
  · rw [heq, BitVec.toNat_shiftLeft, Nat.shiftLeft_eq]
  · omega
  · omega

/-- SLL by -31 to -1 divides the signed value by the power of two, rounding down (R102, D13). -/
theorem shiftLeftSigned_toInt_of_right (hlo : -32 < amount.toInt) (hhi : amount.toInt < 0) :
    (shiftLeftSigned a amount).toInt = a.toInt / 2 ^ (-amount.toInt).toNat := by
  obtain ⟨hnonneg, _, _⟩ | ⟨_, _, heq⟩ | ⟨hout, _⟩ := shiftLeftSigned_cases a amount
  · omega
  · rw [heq]
    exact shiftRight_arith_toInt a _
  · omega

/-- SLL by any other amount gives the free value of the two operands (R102, D14). -/
theorem shiftLeftSigned_of_out_of_range (hout : amount.toInt ≤ -32 ∨ 32 ≤ amount.toInt) :
    shiftLeftSigned a amount = Config.shiftOor a amount := by
  obtain ⟨_, _, _⟩ | ⟨_, _, _⟩ | ⟨_, heq⟩ := shiftLeftSigned_cases a amount
  · omega
  · omega
  · exact heq

/-- A word is the word of its signed value (R7). -/
theorem eq_immWord_of_toInt_eq {w : Word} {n : Int} (h : w.toInt = n) : w = immWord n := by
  rw [immWord, ← h, BitVec.ofInt_toInt]

end Sys2Proof.Machine

/-! PROOFS. The arithmetic and logic instructions ADD, SLL and XOR (spec/42_arith_logic.md). -/

namespace Sys2Proof.Machine

/-- Settles O33: the sum of words is the sum of their numbers modulo 2^32. -/
theorem addWritesTheSumModulo : Obligations.AddWritesTheSumModulo := by
  intro s rd rs2 rs1
  refine ⟨decode_ofNat_of_encode_toNat rfl (toNat_type3 0x4000#16 rfl rd rs2 rs1), _, exec_add rd rs2 rs1 s, ?sum,
    s.keepsAllBut_setReg_nextPc rd _⟩
  case sum => rw [State.reg_setReg_nextPc_self, BitVec.toNat_add]

/-- Settles O34: one value for each of the three ranges of the signed amount. -/
theorem sllShiftsByTheSignedAmount : Obligations.SllShiftsByTheSignedAmount := by
  intro s rd rs2 rs1
  refine ⟨decode_ofNat_of_encode_toNat rfl (toNat_type3 0x5000#16 rfl rd rs2 rs1), _, exec_sll rd rs2 rs1 s, ?_⟩
  rw [State.reg_setReg_nextPc_self]
  exact ⟨shiftLeftSigned_toNat_of_left, shiftLeftSigned_toInt_of_right, shiftLeftSigned_of_out_of_range,
    s.keepsAllBut_setReg_nextPc rd _⟩

/-- Settles O35: the exclusive or of two words works bit by bit, and is 0 exactly when they are equal. -/
theorem xorIsBitwise : Obligations.XorIsBitwise := by
  intro s rd rs2 rs1
  refine ⟨decode_ofNat_of_encode_toNat rfl (toNat_type3 0x6000#16 rfl rd rs2 rs1), _, exec_xor rd rs2 rs1 s, ?_⟩
  rw [State.reg_setReg_nextPc_self]
  exact ⟨fun k _ => BitVec.getLsbD_xor, BitVec.xor_eq_zero_iff, s.keepsAllBut_setReg_nextPc rd _⟩

/-- Settles O36: the operands are words fixed by their signed values, so each result is one computation on words. -/
theorem sourceArithmeticValues : Obligations.SourceArithmeticValues := by
  intro s rd rs2 rs1 a b v ha hb
  refine ⟨fun hadd => ⟨_, exec_add rd rs2 rs1 s, ?sums⟩, fun hsll => ⟨_, exec_sll rd rs2 rs1 s, ?shifts⟩⟩ <;>
    rw [State.reg_setReg_nextPc_self, eq_immWord_of_toInt_eq ha, eq_immWord_of_toInt_eq hb]
  case sums => obtain ⟨rfl, rfl, rfl⟩ | ⟨rfl, rfl, rfl⟩ | ⟨rfl, rfl, rfl⟩ := hadd <;> decide
  case shifts => obtain ⟨rfl, rfl, rfl⟩ | ⟨rfl, rfl, rfl⟩ | ⟨rfl, rfl, rfl⟩ := hsll <;> decide

end Sys2Proof.Machine

/-! PROOFS. The copy instruction CPY (spec/43_copy.md). -/

namespace Sys2Proof.Machine

/-- Settles O37: `rd` holds the constant's word, whose signed value is the constant wherever 32 bits hold it. -/
theorem cpyWritesTheSignedConstant : Obligations.CpyWritesTheSignedConstant := by
  intro s rd imm8
  refine ⟨_, exec_cpy rd imm8 s, ?_⟩
  rw [State.reg_setReg_nextPc_self]
  exact ⟨immWord_toNat imm8, fun hlo hhi => immWord_toInt (by omega) (by omega), s.keepsAllBut_setReg_nextPc rd _⟩

end Sys2Proof.Machine

/-! SUPPORT. What a state moved to another base keeps (R141): it reads, addresses and tests data as before, its fetch is
at the same distance from `PROG_BASE`, and each update of it is the update moved. -/

namespace Sys2Proof.Machine

variable (s : State) (d : Word)

/-! ### What moving the base leaves -/

@[simp] theorem State.relocate_pc : (s.relocate d).pc = s.pc + d := rfl
@[simp] theorem State.relocate_mem : (s.relocate d).mem = s.mem := rfl
@[simp] theorem State.relocate_prog : (s.relocate d).launch.prog = s.launch.prog := rfl
@[simp] theorem State.relocate_progBase : (s.relocate d).launch.progBase = s.launch.progBase + d := rfl
@[simp] theorem State.relocate_endian : (s.relocate d).launch.endian = s.launch.endian := rfl
@[simp] theorem State.relocate_reg (r : RegId) : (s.relocate d).reg r = s.reg r := rfl
@[simp] theorem State.relocate_effAddr (imm5 : Int) (rb : RegId) :
    (s.relocate d).effAddr imm5 rb = s.effAddr imm5 rb := rfl

/-- A data access is tested alike at every base (R44, R90). -/
theorem State.relocate_dataCheck_effAddr (imm5 : Int) (rb : RegId) :
    (s.relocate d).dataCheck ((s.relocate d).effAddr imm5 rb) = s.dataCheck (s.effAddr imm5 rb) := rfl

/-- The pc and `PROG_BASE` move together, so the fetch looks at the same place in the program (R47). -/
@[simp] theorem State.relocate_fetchOffset : (s.relocate d).fetchOffset = s.fetchOffset := by
  have hdist : s.pc + d - (s.launch.progBase + d) = s.pc - s.launch.progBase := by bv_omega
  rw [State.fetchOffset, State.relocate_pc, State.relocate_progBase, hdist, State.fetchOffset]

/-! ### Updates of a moved state -/

theorem State.relocate_setReg (r : RegId) (v : Word) : (s.relocate d).setReg r v = (s.setReg r v).relocate d := rfl

theorem State.relocate_setPc (p : Word) : (s.relocate d).setPc (p + d) = (s.setPc p).relocate d := rfl

/-- Going on moves the pc by 4 at every base (R29, D2). -/
theorem State.relocate_nextPc : (s.relocate d).nextPc = s.nextPc.relocate d := by
  have hpc : s.pc + d + 4 = s.pc + 4 + d := add_right_comm s.pc d 4
  rw [State.nextPc, State.relocate_pc, hpc, State.relocate_setPc, State.nextPc]

/-- Writing the same register of a moved state and going on gives the moved result (R100). -/
theorem State.relocate_setReg_nextPc (r : RegId) (v : Word) :
    ((s.relocate d).setReg r v).nextPc = (s.setReg r v).nextPc.relocate d := by
  rw [State.relocate_setReg, State.relocate_nextPc]

/-! ### Fetch and execution of a moved state -/

/-- A moved state fetches the same word, or stops for the moved reason (R47, R141). -/
theorem State.relocate_fetch : (s.relocate d).fetch = s.fetch.mapError (Fault.relocate d) := by
  cases hfetch : s.fetch with
  | ok w => exact State.fetch_ok.2 (by simpa using State.fetch_ok.1 hfetch)
  | error f =>
    refine State.fetch_error.2 ?_
    rw [State.relocate_fetchOffset]
    obtain ⟨hend, rfl⟩ | ⟨hoff, rfl⟩ | ⟨hslot, hpast, rfl⟩ := State.fetch_error.1 hfetch
    · exact .inl ⟨hend, rfl⟩
    · exact .inr (.inl ⟨hoff, rfl⟩)
    · exact .inr (.inr ⟨hslot, hpast, rfl⟩)

variable {s} in
/-- The faults of a data access hold data addresses, which do not move (R43, R44). -/
theorem Fault.relocate_of_dataCheck {ea : Word} {f : Fault} (h : s.dataCheck ea = .error f) : f.relocate d = f := by
  obtain ⟨-, rfl⟩ | ⟨-, -, rfl⟩ := State.dataCheck_error.1 h <;> rfl

/-- An instruction does the same at every base: branches are relative to the pc, and data addresses do not depend on it
(R81, R141). -/
theorem exec_relocate (i : Instr) : exec i (s.relocate d) = Result.relocate d (exec i s) := by
  cases i with
  | bne imm11 rs =>
    have htarget : (if s.reg rs = 0 then s.pc + d + 4 else s.pc + d + immWord imm11) =
        (if s.reg rs = 0 then s.pc + 4 else s.pc + immWord imm11) + d := by
      split <;> exact add_right_comm _ _ _
    rw [exec_bne, exec_bne, State.relocate_reg, State.relocate_pc, htarget, State.relocate_setPc, Result.relocate]
  | load imm5 rb rt =>
    have hcheck := s.relocate_dataCheck_effAddr d imm5 rb
    cases hd : s.dataCheck (s.effAddr imm5 rb) with
    | ok =>
      rw [exec_load_of_ok rt hd, exec_load_of_ok rt (hcheck.trans hd), State.relocate_setReg_nextPc, Result.relocate,
        State.relocate_mem, State.relocate_endian, State.relocate_effAddr]
    | error f =>
      rw [exec_load_of_error rt hd, exec_load_of_error rt (hcheck.trans hd), Result.relocate,
        Fault.relocate_of_dataCheck d hd]
  | store imm5 rb rt =>
    have hcheck := s.relocate_dataCheck_effAddr d imm5 rb
    cases hd : s.dataCheck (s.effAddr imm5 rb) with
    | ok =>
      rw [exec_store_of_ok rt hd, exec_store_of_ok rt (hcheck.trans hd), Result.relocate, ← State.relocate_nextPc]
      rfl
    | error f =>
      rw [exec_store_of_error rt hd, exec_store_of_error rt (hcheck.trans hd), Result.relocate,
        Fault.relocate_of_dataCheck d hd]
  | add rd rs2 rs1 => exact congrArg _ (s.relocate_setReg_nextPc d rd _)
  | sll rd rs2 rs1 => exact congrArg _ (s.relocate_setReg_nextPc d rd _)
  | xor rd rs2 rs1 => exact congrArg _ (s.relocate_setReg_nextPc d rd _)
  | cpy rd imm8 => exact congrArg _ (s.relocate_setReg_nextPc d rd _)

end Sys2Proof.Machine

/-! PROOFS. Where a run starts, where it ends, and that neither depends on the base (spec/70_reset_and_hazards.md). -/

namespace Sys2Proof.Machine

/-- Settles O21: the moved state fetches the same word, and the instruction it decodes to does the same. -/
theorem relocatedProgramRunsTheSame : Obligations.RelocatedProgramRunsTheSame := by
  intro s d
  rw [step, step, State.relocate_fetch]
  cases s.fetch with
  | ok w => exact exec_relocate s d (decode w)
  | error f => rfl

/-- Settles O10: at the start the pc is at slot 0 of the program, whose word the step runs (O8). -/
theorem runStartsAtProgBase : Obligations.RunStartsAtProgBase := by
  intro l dmemInit regs w rest hprog
  have hfirst : l.prog[0]? = some w := by rw [hprog, List.getElem?_cons_zero]
  refine ⟨rfl, rfl, rfl, stepRunsTheFetchedInstruction _ 0 w _ (by decide) ?_ hfirst rfl⟩
  exact (BitVec.add_zero l.progBase).symm

/-- No instruction ends a run: only a fetch does (R128, R143). -/
theorem exec_ne_halted (i : Instr) (s : State) (v : Word) : exec i s ≠ .fault (.halted v) := by
  intro h
  obtain ⟨_, _, _, _, hd⟩ := exec_fault.1 h
  simp [State.dataCheck_error] at hd

/-- The fetch is `n` addresses from `PROG_BASE` exactly when the pc is there, for every `n` that 32 bits hold (R47). -/
theorem State.fetchOffset_eq_iff (s : State) {n : Nat} (hn : n < 2 ^ 32) :
    s.fetchOffset = n ↔ s.pc = s.launch.progBase + BitVec.ofNat 32 n := by
  have hword : s.fetchOffset = n ↔ s.pc - s.launch.progBase = BitVec.ofNat 32 n := by
    rw [State.fetchOffset, ← BitVec.toNat_inj, BitVec.toNat_ofNat, Nat.mod_eq_of_lt hn]
  rw [hword, BitVec.sub_eq_iff_eq_add, BitVec.add_comm]

/-- Settles O12: the fetch halts exactly at the program's end, which does not wrap, and no instruction ends a run. -/
theorem runEndsExactlyAfterTheLastInstruction : Obligations.RunEndsExactlyAfterTheLastInstruction := by
  intro s v hlen
  rw [← s.fetchOffset_eq_iff (by omega), step_fault, State.fetch_error]
  constructor
  · rintro (hfetch | ⟨w, -, hexec⟩)
    · simpa using hfetch
    · exact absurd hexec (exec_ne_halted _ s v)
  · rintro ⟨hend, rfl⟩
    exact .inl (.inl ⟨hend, rfl⟩)

end Sys2Proof.Machine
